-- ==== Sys2Proof/Word.lean ====
section
/-! DEFINITION. The value types of QMC (00_scope.md R5, R6) and their plainest arithmetic. -/

namespace Sys2Proof

/-- A command word (30_encoding.md R60), and a host u32. -/
abbrev Word := BitVec 32

/-- An element of BIN and BOUT (20_memory.md R40). -/
abbrev Byte := BitVec 8

/-- The default of the argument `K`, the spec's `Num`: the number type of a sample component, a noise value,
sigma and an LLR. `Num` is open, an ordered field (00_scope.md R5); it is an argument of `State` and of every
definition over numbers, and the machine over any of them is `stepOver`. Where the argument is not written
it is the exact rationals, over which the spec writes every vector (decision D6).
DESIGN CHOICE (log entry 1; unsafe of a floating-point implementation): that default. (The name `Num` is
another type's in the library.) -/
abbrev QNum := Rat

/-- `NumX`: `Num` with one more value `+inf` (00_scope.md R6); the type of QR. -/
inductive NumX (K : Type := QNum) where
  | fin (x : K)
  | posInf
deriving DecidableEq, Repr, Inhabited

/-- A constellation point or a complex sample, in-phase first (00_scope.md R6). -/
structure Point (K : Type := QNum) where
  i : K
  q : K
deriving DecidableEq, Repr, Inhabited

/-- `ceil_div(a, b) = (a + b - 1) div b` (00_scope.md R6). -/
def ceilDiv (a b : Nat) : Nat := (a + b - 1) / b

end Sys2Proof
end

