-- ==== Sys2Proof/Syntax.lean ====
section
/-! DEFINITION. The 21 commands of QMC, one constructor per row of the opcode table
(30_encoding.md R63). -/

namespace Sys2Proof

/-- The 2-bit order code (00_scope.md R2): QPSK = 0, QAM16 = 1, QAM64 = 2; code 3 is "none" in the
register ORDER and "any" in a bind, and is illegal in MAP_INIT. -/
inductive Order where
  | qpsk
  | qam16
  | qam64
  | code3
deriving DecidableEq, Repr

/-- A buffer number, B0 to B3 (30_encoding.md R61; NB = 4, 00_scope.md R5). -/
abbrev BufId := Fin 4

/-- A command with its operands (30_encoding.md R63). `bd` is the destination buffer, `bs` the source
buffer; `idx` and `len` are the 16-bit immediate; `pos` and `h` come from the field `fl`. -/
inductive Instr where
  | mapInit (o : Order)
  | mapInstall
  | mapOrder
  | mapBps
  | mapGet (idx : BitVec 16)
  | bufMake (bd : BufId) (len : BitVec 16)
  | bufStore (bd : BufId) (idx : BitVec 16)
  | bufLoad (bs : BufId) (idx : BitVec 16)
  | bufCopy (bd bs : BufId)
  | modBind (e : Order)
  | modulate (bd : BufId)
  | demBind (e : Order)
  | demod (bs : BufId)
  | demodLlr (bs : BufId) (h : Bool)
  | llrBit (bs : BufId) (idx : BitVec 16) (pos : BitVec 4)
  | chSet
  | chTxs
  | chTxb (bd bs : BufId)
  | chQ
  | chLogq
  | halt
deriving DecidableEq, Repr

end Sys2Proof
end

