-- ==== Sys2Proof/WellFormed.lean ====
section
/-! DEFINITION. Which commands have an encoding: the two value conditions of 30_encoding.md R64
(c) and (d). Every other operand is as wide as its field. -/

namespace Sys2Proof

/-- The check of 30_encoding.md R64: (c) MAP_INIT does not take order code 3, (d) CH_TXB has distinct
buffers. -/
def Instr.wf : Instr → Bool
  | .mapInit o => o != .code3
  | .mapInstall => true
  | .mapOrder => true
  | .mapBps => true
  | .mapGet _ => true
  | .bufMake _ _ => true
  | .bufStore _ _ => true
  | .bufLoad _ _ => true
  | .bufCopy _ _ => true
  | .modBind _ => true
  | .modulate _ => true
  | .demBind _ => true
  | .demod _ => true
  | .demodLlr _ _ => true
  | .llrBit _ _ _ => true
  | .chSet => true
  | .chTxs => true
  | .chTxb bd bs => bd != bs
  | .chQ => true
  | .chLogq => true
  | .halt => true

/-- `i` is a command that some word stands for. -/
abbrev Instr.WellFormed (i : Instr) : Prop := i.wf = true

end Sys2Proof
end

