-- ==== Sys2Proof/Decode.lean ====
section
/-! DEFINITION. The decoder (30_encoding.md R66), total on every word, and the encoder, both from the
table of 30_encoding.md R63. -/

namespace Sys2Proof

/-- Why a word is illegal, by the four clauses of 30_encoding.md R64. Executing such a word raises
Illegal, whichever clause it is. -/
inductive Reject where
  /-- R64 (a): no row has this `op`. -/
  | unassignedOp
  /-- R64 (b): a bit outside the row's operands is non-zero. -/
  | nonzeroUnused
  /-- R64 (c): MAP_INIT with order code 3. -/
  | orderThree
  /-- R64 (d): CH_TXB with bd = bs. -/
  | sameBuffer
deriving DecidableEq, Repr

/-! The fields of a command word (30_encoding.md R60). -/

def opField (w : Word) : BitVec 8 := w.extractLsb' 24 8
def bdField (w : Word) : BitVec 2 := w.extractLsb' 22 2
def bsField (w : Word) : BitVec 2 := w.extractLsb' 20 2
def flField (w : Word) : BitVec 4 := w.extractLsb' 16 4
def immField (w : Word) : BitVec 16 := w.extractLsb' 0 16

/-- The 2-bit code of an order (00_scope.md R2). -/
def Order.code : Order → BitVec 2
  | .qpsk => 0
  | .qam16 => 1
  | .qam64 => 2
  | .code3 => 3

/-- The order of a 2-bit code. -/
def orderOfCode (c : BitVec 2) : Order :=
  if c = 0 then .qpsk else if c = 1 then .qam16 else if c = 2 then .qam64 else .code3

/-- The buffer of a 2-bit number (30_encoding.md R61). -/
def bufOfCode (c : BitVec 2) : BufId := ⟨c.toNat, c.isLt⟩

/-- The 2-bit number of a buffer. -/
def bufCode (b : BufId) : BitVec 2 := BitVec.ofNat 2 b.val

/-- `imm[1:0]`, where the immediate carries an order code (30_encoding.md R61). -/
def orderOperand (w : Word) : Order := orderOfCode (w.extractLsb' 0 2)

/-- The rows of the opcode table (30_encoding.md R63). -/
inductive Opcode where
  | mapInit | mapInstall | mapOrder | mapBps | mapGet
  | bufMake | bufStore | bufLoad | bufCopy
  | modBind | modulate
  | demBind | demod | demodLlr | llrBit
  | chSet | chTxs | chTxb | chQ | chLogq
  | halt
deriving DecidableEq, Repr

/-- The column `op` of 30_encoding.md R63. -/
def Opcode.code : Opcode → BitVec 8
  | .mapInit => 0x01 | .mapInstall => 0x02 | .mapOrder => 0x03 | .mapBps => 0x04 | .mapGet => 0x05
  | .bufMake => 0x10 | .bufStore => 0x11 | .bufLoad => 0x12 | .bufCopy => 0x13
  | .modBind => 0x20 | .modulate => 0x21
  | .demBind => 0x30 | .demod => 0x31 | .demodLlr => 0x32 | .llrBit => 0x33
  | .chSet => 0x40 | .chTxs => 0x41 | .chTxb => 0x42 | .chQ => 0x43 | .chLogq => 0x44
  | .halt => 0x7F

/-- The column `match` of 30_encoding.md R63. -/
def Opcode.matchWord : Opcode → Word
  | .mapInit => 0x01000000 | .mapInstall => 0x02000000 | .mapOrder => 0x03000000
  | .mapBps => 0x04000000 | .mapGet => 0x05000000
  | .bufMake => 0x10000000 | .bufStore => 0x11000000 | .bufLoad => 0x12000000
  | .bufCopy => 0x13000000
  | .modBind => 0x20000000 | .modulate => 0x21000000
  | .demBind => 0x30000000 | .demod => 0x31000000 | .demodLlr => 0x32000000
  | .llrBit => 0x33000000
  | .chSet => 0x40000000 | .chTxs => 0x41000000 | .chTxb => 0x42000000
  | .chQ => 0x43000000 | .chLogq => 0x44000000
  | .halt => 0x7F000000

/-- The column `mask` of 30_encoding.md R63. -/
def Opcode.maskWord : Opcode → Word
  | .mapInit => 0xFFFFFFFC | .mapInstall => 0xFFFFFFFF | .mapOrder => 0xFFFFFFFF
  | .mapBps => 0xFFFFFFFF | .mapGet => 0xFFFF0000
  | .bufMake => 0xFF3F0000 | .bufStore => 0xFF3F0000 | .bufLoad => 0xFFCF0000
  | .bufCopy => 0xFF0FFFFF
  | .modBind => 0xFFFFFFFC | .modulate => 0xFF3FFFFF
  | .demBind => 0xFFFFFFFC | .demod => 0xFFCFFFFF | .demodLlr => 0xFFCEFFFF
  | .llrBit => 0xFFC00000
  | .chSet => 0xFFFFFFFF | .chTxs => 0xFFFFFFFF | .chTxb => 0xFF0FFFFF
  | .chQ => 0xFFFFFFFF | .chLogq => 0xFFFFFFFF
  | .halt => 0xFFFFFFFF

def Opcode.all : List Opcode :=
  [.mapInit, .mapInstall, .mapOrder, .mapBps, .mapGet, .bufMake, .bufStore, .bufLoad, .bufCopy,
    .modBind, .modulate, .demBind, .demod, .demodLlr, .llrBit, .chSet, .chTxs, .chTxb, .chQ,
    .chLogq, .halt]

/-- The row of an `op`, if there is one (30_encoding.md R66). -/
def opcodeOf (op : BitVec 8) : Option Opcode := Opcode.all.find? (fun c => c.code == op)

/-- The column `uses` of 30_encoding.md R63: the command of a row with the fields of a word. -/
def Opcode.command (c : Opcode) (w : Word) : Instr :=
  match c with
  | .mapInit => .mapInit (orderOperand w)
  | .mapInstall => .mapInstall
  | .mapOrder => .mapOrder
  | .mapBps => .mapBps
  | .mapGet => .mapGet (immField w)
  | .bufMake => .bufMake (bufOfCode (bdField w)) (immField w)
  | .bufStore => .bufStore (bufOfCode (bdField w)) (immField w)
  | .bufLoad => .bufLoad (bufOfCode (bsField w)) (immField w)
  | .bufCopy => .bufCopy (bufOfCode (bdField w)) (bufOfCode (bsField w))
  | .modBind => .modBind (orderOperand w)
  | .modulate => .modulate (bufOfCode (bdField w))
  | .demBind => .demBind (orderOperand w)
  | .demod => .demod (bufOfCode (bsField w))
  | .demodLlr => .demodLlr (bufOfCode (bsField w)) ((flField w).getLsbD 0)
  | .llrBit => .llrBit (bufOfCode (bsField w)) (immField w) (flField w)
  | .chSet => .chSet
  | .chTxs => .chTxs
  | .chTxb => .chTxb (bufOfCode (bdField w)) (bufOfCode (bsField w))
  | .chQ => .chQ
  | .chLogq => .chLogq
  | .halt => .halt

/-- The value condition a command fails, for a command that is not well-formed (30_encoding.md R64
(c), (d)); only MAP_INIT and CH_TXB have one. -/
def valueReject (c : Opcode) : Reject :=
  if c = .mapInit then .orderThree else .sameBuffer

/-- `decode(w)` (30_encoding.md R66). -/
def decode (w : Word) : Except Reject Instr :=
  match opcodeOf (opField w) with
  | none => .error .unassignedOp
  | some c =>
    if w &&& c.maskWord = c.matchWord then
      if (c.command w).wf then .ok (c.command w) else .error (valueReject c)
    else .error .nonzeroUnused

/-- A word from its five fields (30_encoding.md R60), `op` in the high bits. -/
def packWord (op : BitVec 8) (bd bs : BitVec 2) (fl : BitVec 4) (imm : BitVec 16) : Word :=
  op ++ bd ++ bs ++ fl ++ imm

/-- The word of a command (30_encoding.md R60, R61, R63); fields a command does not use are zero. -/
def encode : Instr → Word
  | .mapInit o => packWord 0x01 0 0 0 (o.code.setWidth 16)
  | .mapInstall => packWord 0x02 0 0 0 0
  | .mapOrder => packWord 0x03 0 0 0 0
  | .mapBps => packWord 0x04 0 0 0 0
  | .mapGet idx => packWord 0x05 0 0 0 idx
  | .bufMake bd len => packWord 0x10 (bufCode bd) 0 0 len
  | .bufStore bd idx => packWord 0x11 (bufCode bd) 0 0 idx
  | .bufLoad bs idx => packWord 0x12 0 (bufCode bs) 0 idx
  | .bufCopy bd bs => packWord 0x13 (bufCode bd) (bufCode bs) 0 0
  | .modBind e => packWord 0x20 0 0 0 (e.code.setWidth 16)
  | .modulate bd => packWord 0x21 (bufCode bd) 0 0 0
  | .demBind e => packWord 0x30 0 0 0 (e.code.setWidth 16)
  | .demod bs => packWord 0x31 0 (bufCode bs) 0 0
  | .demodLlr bs h => packWord 0x32 0 (bufCode bs) (if h then 1 else 0) 0
  | .llrBit bs idx pos => packWord 0x33 0 (bufCode bs) pos idx
  | .chSet => packWord 0x40 0 0 0 0
  | .chTxs => packWord 0x41 0 0 0 0
  | .chTxb bd bs => packWord 0x42 (bufCode bd) (bufCode bs) 0 0
  | .chQ => packWord 0x43 0 0 0 0
  | .chLogq => packWord 0x44 0 0 0 0
  | .halt => packWord 0x7F 0 0 0 0

/-- The word of the opcode table whose low `nbits` bits are `w`; higher bits are zero. -/
def tableWord (nbits w : Nat) : Word := BitVec.ofNat 32 (w % 2 ^ nbits)

/-- The host's view of the decoder: the command it reads from a word numbered as the opcode table
numbers it (a command is one 32-bit element, so there is no byte order; 20_memory.md R43). -/
def decodeTableWord (nbits w : Nat) : Option Instr :=
  match decode (tableWord nbits w) with
  | .ok i => some i
  | .error _ => none

end Sys2Proof
end

