-- ==== Sys2Proof/Config.lean ====
section
/-! DEFINITION. What an implementation fixes (00_scope.md R5, R11) and the free values of the model.
Nothing here has a value a proof could see: the `opaque` constants have no body. -/

namespace Sys2Proof

/-- The implementation parameters of 00_scope.md R5 that are numbers. The step takes them from
`State.params`, so that a statement about every state is a statement about every choice of them
(log entry 2; DESIGN CHOICE, safe). -/
structure Params (K : Type := QNum) where
  /-- `NOISE_LEN`, the length L of the cached noise sequence. -/
  noiseLen : Nat
  /-- `CAP_MAX`, the largest buffer capacity in words. -/
  capMax : Nat
  /-- `BYTES_MAX`, the size in bytes of BIN and of BOUT. -/
  bytesMax : Nat
  /-- `CM_SIZE`, the size in words of the command memory. -/
  cmSize : Nat
  /-- `SIGMA2_FLOOR`, the constant sigma squared is floored to in the LLR. -/
  sigma2Floor : K
deriving DecidableEq, Repr

namespace Config

variable {K : Type} [Inhabited K]

opaque noiseLenRaw : Nat
opaque capMaxRaw : Nat
opaque bytesMaxRaw : Nat
opaque cmSizeRaw : Nat
opaque sigma2FloorRaw : K

/-- CAP_MAX: even, 2 <= CAP_MAX <= 65534, every such value possible (00_scope.md R5). -/
def capMax : Nat := 2 * (capMaxRaw % 32767 + 1)

/-- The parameters of this machine, each an unknown value inside the bounds of 00_scope.md R5 and
nothing more (log entry 2). -/
def params [Field K] [LinearOrder K] : Params K where
  noiseLen := noiseLenRaw % 65535 + 1
  capMax := capMax
  bytesMax := ceilDiv (3 * capMax) 8 + bytesMaxRaw % (65536 - ceilDiv (3 * capMax) 8)
  cmSize := cmSizeRaw % 65535 + 1
  sigma2Floor := if (0 : K) < sigma2FloorRaw then sigma2FloorRaw else 1

/-- `Log10` before its one law (00_scope.md R5); the law is put on it by `Machine.log10`. -/
opaque log10Raw : K → K

/-- The noise oracle before its one law (44_channel.md R141): the reset it belongs to, sigma, the
generation counter g, the index in the sequence. The law is put on it by `State.noiseGen`. -/
opaque noiseRaw : Nat → K → Nat → Nat → K

/-! The unspecified content of an element nothing has written (10_state.md R31, 20_memory.md R54,
93_implementation_defined.md U3): one unknown value for each space, key and index. The key is the
number taken from `State.fresh` when the element became unspecified (log entry 3). -/

opaque anyCm : Nat → Nat → Word
opaque anyBin : Nat → Nat → Byte
opaque anyBout : Nat → Nat → Byte
opaque anyLlr : Nat → Nat → K
opaque anyNz : Nat → Nat → K
opaque anyCt : Nat → Nat → Point K
opaque anyGt : Nat → Nat → Point K
/-- Key, buffer number, word index. -/
opaque anySb : Nat → Nat → Nat → K

end Config
end Sys2Proof
end

