-- ==== Sys2Proof/Machine/State.lean ====
section
/-! DEFINITION. The state of QMC (10_state.md R12 to R28) as plain data, its reset value (R31), and
the reasons a step or a host access can stop. -/

namespace Sys2Proof.Machine

/-- A memory space (20_memory.md R40) as the elements written since it was last unspecified: pairs of
index and element, indexes strictly rising. An unlisted index holds no written element, so two spaces
with the same written elements are the same list. For BIN and BOUT this is a list of `Host.Cell`. -/
abbrev Memory (α : Type) := List (Nat × α)

/-- `RUN` (10_state.md R15). -/
inductive Run where
  | idle
  | running
  | done
  | faulted
deriving DecidableEq, Repr

/-- The faults of the architecture (60_exceptions.md R170). Taking one is a next state (`raise`), not
an outcome `fault` of the model. -/
inductive CmdFault where
  | cfgNoMapper
  | cfgWrongOrder
  | boundsLength
  | boundsIndex
  | illegal
  | notConstructed
deriving DecidableEq, Repr

/-- A sample buffer (10_state.md R21): its capacity register `CAP[b]` (0: not constructed), its words
`SB[b]`, and the model's own key of its unspecified words (log entry 3). -/
structure Buffer (K : Type := QNum) where
  cap : Nat
  words : Memory K
  era : Nat
deriving DecidableEq, Repr

/-- The state of QMC over the number type `K` (`Num`, 00_scope.md R5). Registers of a stated width that only
count or index are naturals; their widths are part of the invariant (45_control.md R164; log entry 9). -/
structure State (K : Type := QNum) where
  /-- The implementation parameters (00_scope.md R5): constant (log entry 2). -/
  params : Params K
  /-- PC, R14. -/
  pc : Nat
  /-- RUN, R15. -/
  run : Run
  /-- ERR, R16; none is code 0. -/
  err : Option CmdFault
  /-- EPC, R16. -/
  epc : Nat
  /-- MAP_VALID, R17. -/
  mapValid : Bool
  /-- ORDER, R17. -/
  order : Order
  /-- CUSTOM, R17. -/
  custom : Bool
  /-- CT, R18. -/
  ct : Memory (Point K)
  /-- GT, R19. -/
  gt : Memory (Point K)
  /-- MOD_BOUND, R20. -/
  modBound : Bool
  /-- DEM_BOUND, R20. -/
  demBound : Bool
  /-- CAP[0..3] and SB[0..3], R21. -/
  bufs : Vector (Buffer K) 4
  /-- BIN, R22. -/
  bin : Memory Byte
  /-- BIN_LEN, R22. -/
  binLen : Nat
  /-- BOUT, R23. -/
  bout : Memory Byte
  /-- BOUT_LEN, R23. -/
  boutLen : Nat
  /-- LLR, R24. -/
  llr : Memory K
  /-- LLR_LEN, R24. -/
  llrLen : Nat
  /-- CH_VALID, R25. -/
  chValid : Bool
  /-- SIGMA, R25. -/
  sigma : K
  /-- NZ, R26. -/
  nz : Memory K
  /-- CURSOR, R26. -/
  cursor : Nat
  /-- The generation counter g of the noise oracle, R141. -/
  regens : Nat
  /-- The noise oracle's answers that are fixed beforehand, the next one first: an input of the model, not a
  register (00_scope.md R4 (5), 44_channel.md R141 "a test fixes the answer as part of its start state").
  What no listed answer gives is a free value (log entry 5). -/
  oracle : List (List K)
  /-- DI, R12. -/
  di : K
  /-- DQ, R12. -/
  dq : K
  /-- RES, R13. -/
  res : Word
  /-- QR, R13. -/
  qr : NumX K
  /-- CM, R27. -/
  cm : Memory Word
  /-- The model's own: the key of unspecified elements outside the buffers (log entry 3). -/
  era : Nat
  /-- The model's own: the next unused key (log entry 3). -/
  fresh : Nat
deriving DecidableEq, Repr

/-- Why the model stops. No command and no step of the core stops with one of these: they are answers
of the host port alone. -/
inductive Fault where
  /-- Raised by `hostMove`, `hostReadReg` and `hostReadMem` for a host access during a run other than
  to CTRL: "no move in the model" (20_memory.md R52, U10). Safe. -/
  | hostAccessDuringRun
  /-- Raised by `hostMove` and `hostReadMem` for an index outside its memory space (20_memory.md
  R41). Safe. -/
  | noSuchElement
  /-- Raised by `hostReadReg` for the write-only register CTRL (10_state.md R29, R30). Safe. -/
  | writeOnlyRegister
deriving DecidableEq, Repr

/-- What the model refuses. -/
inductive Refusal where
  /-- A command that has no meaning yet; raised by no arm of `exec`. Safe. -/
  | notModelled (mnemonic : String)
  /-- Raised by `hostMove` for a register write whose value is of another kind than the register
  (10_state.md R29 gives only the transfer of the register's own kind; log entry 8). Safe. -/
  | registerKind
deriving DecidableEq, Repr

/-- A buffer that is not constructed (10_state.md R31), its words unspecified under `key`. -/
def Buffer.unmade {K : Type} (key : Nat) : Buffer K := { cap := 0, words := [], era := key }

/-- The state after a reset (10_state.md R31, 70_reset_and_hazards.md R190): every register at the
value of the table, every memory unspecified, under the key taken for this reset. -/
def State.afterReset {K : Type} [Zero K] (p : Params K) (key : Nat) : State K where
  params := p
  pc := 0
  run := .idle
  err := none
  epc := 0
  mapValid := false
  order := .code3
  custom := false
  ct := []
  gt := []
  modBound := false
  demBound := false
  bufs := Vector.replicate 4 (Buffer.unmade key)
  bin := []
  binLen := 0
  bout := []
  boutLen := 0
  llr := []
  llrLen := 0
  chValid := false
  sigma := 0
  nz := []
  cursor := 0
  regens := 0
  oracle := []
  di := 0
  dq := 0
  res := 0
  qr := .fin 0
  cm := []
  era := key
  fresh := key + 1

/-- The machine with parameters `p` after power-on. -/
def State.resetWith {K : Type} [Zero K] (p : Params K) : State K := State.afterReset p 0

/-- The machine right after power-on (10_state.md R31). -/
def State.reset : State := State.resetWith Config.params

end Sys2Proof.Machine
end

