-- ==== Sys2Proof/Machine/Ops.lean ====
section
/-! DEFINITION. The operations every command is made of: reading and writing elements of the memory
spaces (20_memory.md R40, R41), the noise draw (44_channel.md R141 to R143), the command counter and
fault entry (45_control.md R160, 60_exceptions.md R177). -/

namespace Sys2Proof.Machine

/-- What `exec` answers. -/
abbrev Result (K : Type := QNum) := Host.Outcome (State K) Fault Refusal

/-! ### Memory spaces -/

/-- The element written at an index, if one is. -/
def Memory.read {α : Type} : Memory α → Nat → Option α
  | [], _ => none
  | (k, v) :: m, a => if k = a then some v else Memory.read m a

/-- `MemWrite(SPACE, a, v)` (20_memory.md R41). -/
def Memory.write {α : Type} : Memory α → Nat → α → Memory α
  | [], a, v => [(a, v)]
  | (k, x) :: m, a, v =>
    if k < a then (k, x) :: Memory.write m a v
    else if k = a then (a, v) :: m
    else (a, v) :: (k, x) :: m

/-- The loop `for a in 0..n-1: MemWrite(SPACE, a, f a)` whose writes do not depend on each other
(log entry 10). -/
def Memory.fill {α : Type} (m : Memory α) (n : Nat) (f : Nat → α) : Memory α :=
  (List.range n).map (fun a => (a, f a)) ++ m.filter (fun e => decide (n ≤ e.1))

/-- The elements below `n` become unspecified; the others keep what was written. -/
def Memory.forgetBelow {α : Type} (m : Memory α) (n : Nat) : Memory α :=
  m.filter (fun e => decide (n ≤ e.1))

/-- The canonical form: indexes strictly rising, so no index is listed twice. -/
abbrev Memory.wf {α : Type} (m : Memory α) : Prop := m.Pairwise (fun x y => x.1 < y.1)

/-- Every listed index is below `n`, the space's element count. -/
abbrev Memory.below {α : Type} (m : Memory α) (n : Nat) : Prop := ∀ e ∈ m, e.1 < n

/-! ### Reading an element

`MemRead(SPACE, a)`: what was written there, else an unspecified value, which is the same at every
read until the element becomes unspecified anew (20_memory.md R54, U3; log entry 3). -/

variable {K : Type}

def State.cmWord (s : State K) (a : Nat) : Word := (s.cm.read a).getD (Config.anyCm s.era a)
def State.binByte (s : State K) (a : Nat) : Byte := (s.bin.read a).getD (Config.anyBin s.era a)
def State.boutByte (s : State K) (a : Nat) : Byte := (s.bout.read a).getD (Config.anyBout s.era a)
def State.llrEntry [Inhabited K] (s : State K) (a : Nat) : K := (s.llr.read a).getD (Config.anyLlr s.era a)
def State.ctPoint [Inhabited K] (s : State K) (a : Nat) : Point K := (s.ct.read a).getD (Config.anyCt s.era a)
def State.gtPoint [Inhabited K] (s : State K) (a : Nat) : Point K := (s.gt.read a).getD (Config.anyGt s.era a)
def State.nzValue [Inhabited K] (s : State K) (a : Nat) : K := (s.nz.read a).getD (Config.anyNz s.era a)

/-- Buffer `b` (10_state.md R21). -/
def State.buf (s : State K) (b : BufId) : Buffer K := s.bufs[b.val]

/-- `SB[b][a]`. -/
def State.sbWord [Inhabited K] (s : State K) (b : BufId) (a : Nat) : K :=
  ((s.buf b).words.read a).getD (Config.anySb (s.buf b).era b.val a)

/-- Replace buffer `b`. -/
def State.setBuf (s : State K) (b : BufId) (x : Buffer K) : State K := { s with bufs := s.bufs.set b.val x }

/-- `CAP[b] <- n` with words `0..n-1` written from `f`: the buffer a whole-buffer result constructs
(41_buffer.md R104, 42_modulator.md R113, 44_channel.md R146). -/
def State.fillBuf (s : State K) (b : BufId) (cap n : Nat) (f : Nat → K) : State K :=
  s.setBuf b { cap := cap, words := (s.buf b).words.fill n f, era := (s.buf b).era }

/-- A new buffer of capacity `cap` in slot `b`, its words below `cap` unspecified under a fresh key
(41_buffer.md R101, 20_memory.md R54; log entry 4). -/
def State.makeBuf (s : State K) (b : BufId) (cap : Nat) : State K :=
  { s with
    bufs := s.bufs.set b.val
      { cap := cap, words := (s.buf b).words.forgetBelow cap, era := s.fresh }
    fresh := s.fresh + 1 }

/-! ### The noise source -/

/-- Value `i` of the oracle's next answer (44_channel.md R141): the one fixed beforehand, or else a free
value of this reset (`era`), sigma, generation and index (log entry 5). -/
def State.oracleValue [Inhabited K] (s : State K) (sigma : K) (i : Nat) : K :=
  match s.oracle with
  | answer :: _ => answer.getD i (Config.noiseRaw s.era sigma s.regens i)
  | [] => Config.noiseRaw s.era sigma s.regens i

/-- `NoiseGen(sigma, g)` (44_channel.md R141) with its one law: at sigma = 0 every value is 0. -/
def State.noiseGen [Field K] [LinearOrder K] [Inhabited K] (s : State K) (sigma : K) (i : Nat) : K :=
  if sigma = 0 then 0 else s.oracleValue sigma i

/-- `Log10` (00_scope.md R5) with its one law: `Log10(1) = 0`. -/
def log10 [Field K] [LinearOrder K] [Inhabited K] (x : K) : K := if x = 1 then 0 else Config.log10Raw x

/-- `regenerate(sigma)` (44_channel.md R142): a fresh answer of the oracle, the cursor at 0. -/
def regenerate [Field K] [LinearOrder K] [Inhabited K] (sigma : K) (s : State K) : State K :=
  { s with
    nz := s.nz.fill s.params.noiseLen (s.noiseGen sigma)
    cursor := 0
    regens := s.regens + 1
    oracle := s.oracle.tail }

/-- `draw()` (44_channel.md R143): the next cached noise value, and the state with the cursor moved. -/
def draw [Inhabited K] (s : State K) : K × State K :=
  (s.nzValue s.cursor, { s with cursor := (s.cursor + 1) % s.params.noiseLen })

/-- The values of `n` draws in order, and the state after them. -/
def draws [Inhabited K] : Nat → State K → List K × State K
  | 0, s => ([], s)
  | n + 1, s => ((draw s).1 :: (draws n (draw s).2).1, (draws n (draw s).2).2)

/-! ### The command counter, fault entry, and the shape of a command -/

/-- `pc <- PC + 1` (10_state.md R14). -/
def advance (s : State K) : State K := { s with pc := s.pc + 1 }

/-- `raise F`, fault entry (60_exceptions.md R177): ERR, EPC and RUN are written, nothing else. There
is no return from it beside `hostReset` (R179). -/
def raise (f : CmdFault) (s : State K) : State K := { s with err := some f, epc := s.pc, run := .faulted }

/-- The fault of the first condition that holds: the conditions stand in the order of the command's
pseudocode (60_exceptions.md R178). -/
def firstFault : List (Bool × CmdFault) → Option CmdFault
  | [] => none
  | (c, f) :: rest => if c then some f else firstFault rest

/-- A command that is not HALT: its checks, all before its first write (60_exceptions.md R177); then
its effect and `pc <- PC + 1` (45_control.md R160). -/
def command (s : State K) (checks : List (Bool × CmdFault)) (effect : State K) : Result K :=
  .next (match firstFault checks with
    | some f => raise f s
    | none => advance effect)

/-! ### Command fetch -/

/-- `PC >= CM_SIZE`: the run has left the command memory (45_control.md R160). -/
def pastEnd (s : State K) : Bool := decide (s.params.cmSize ≤ s.pc)

/-- Where a command placed by the host is fetched next: at PC, or at 0 when PC has left the command
memory (log entry 6). -/
def State.fetchPoint (s : State K) : Nat := if pastEnd s then 0 else s.pc

/-- The word at PC, decoded (45_control.md R160). -/
def fetch (s : State K) : Except Reject Instr := decode (s.cmWord s.pc)

/-- What a fetch past the end or an illegal word does: raise Illegal (45_control.md R160,
30_encoding.md R64). -/
def takeIllegal (s : State K) : Result K := .next (raise .illegal s)

end Sys2Proof.Machine
end

