-- ==== Sys2Proof/Machine/Operands.lean ====
section
/-! DEFINITION. The operand forms: the order and what it gives (00_scope.md R5), a sample of a buffer
(00_scope.md R8, 41_buffer.md R100), a bit of a stream (00_scope.md R7), and a number from its bits,
first bit most significant (20_memory.md R42). -/

namespace Sys2Proof.Machine

/-- `bps(o)`, bits per symbol (00_scope.md R5). Code 3 has none: 0, reached by no run (log entry
11). -/
def bps : Order → Nat
  | .qpsk => 2
  | .qam16 => 4
  | .qam64 => 6
  | .code3 => 0

/-- `M(o) = 2^bps(o)`, the number of points (00_scope.md R5). -/
def points (o : Order) : Nat := 2 ^ bps o

/-- `CAP[b]`. -/
def State.cap {K : Type} (s : State K) (b : BufId) : Nat := (s.buf b).cap

/-- `(re(b, n), im(b, n))`, sample `n` of buffer `b` in the split layout (00_scope.md R8). -/
def State.sample {K : Type} [Inhabited K] (s : State K) (b : BufId) (n : Nat) : Point K :=
  { i := s.sbWord b n, q := s.sbWord b (s.cap b / 2 + n) }

/-- `streambit(Y, n, p)` (00_scope.md R7): position 0 is the most significant bit of byte 0; a position
at or beyond the stream's end is 0. -/
def streamBit (y : Nat → Byte) (n p : Nat) : Bool :=
  decide (p < 8 * n) && (y (p / 8)).getLsbD (7 - p % 8)

/-- The number of `k` bits whose first is the most significant (20_memory.md R42):
`sum over j in 0..k-1 of bit(j) << (k-1-j)`. -/
def fromMsb (k : Nat) (bit : Nat → Bool) : Nat :=
  ((List.range k).map (fun j => (bit j).toNat <<< (k - 1 - j))).sum

/-- The checks of MOD_BIND and DEM_BIND (42_modulator.md R110, 43_demodulator.md R120): a mapper, then
the required order, where code 3 requires none. -/
def bindChecks {K : Type} (e : Order) (s : State K) : List (Bool × CmdFault) :=
  [(!s.mapValid, .notConstructed), (decide (e ≠ .code3) && decide (e ≠ s.order), .cfgWrongOrder)]

end Sys2Proof.Machine
end

