-- ==== Sys2Proof/Machine/Channel.lean ====
section
/-! DEFINITION. The channel (44_channel.md): CH_SET, CH_TXS, CH_TXB, CH_Q, CH_LOGQ. -/

namespace Sys2Proof.Machine

variable {K : Type} [Field K] [LinearOrder K] [Inhabited K]

/-- CH_SET (44_channel.md R144). -/
def execChSet (s : State K) : Result K :=
  command s [(decide (s.di < 0), .illegal)]
    { regenerate s.di s with sigma := s.di, chValid := true }

/-- The sample in `(DI, DQ)` with one noise value on each component, in-phase first (44_channel.md
R145). -/
def addNoise (s : State K) : State K :=
  { (draw (draw s).2).2 with di := s.di + (draw s).1, dq := s.dq + (draw (draw s).2).1 }

/-- CH_TXS (44_channel.md R145). -/
def execChTxs (s : State K) : Result K :=
  command s [(!s.chValid, .notConstructed)] (addNoise s)

/-- Word `a` of a transmitted buffer of `half` samples (44_channel.md R146): the source word plus its
draw; the real part of sample `n` takes draw `2n`, the imaginary part draw `2n + 1`. -/
def noisyWord (src : Nat → K) (noise : List K) (half a : Nat) : K :=
  src a + noise.getD (if a < half then 2 * a else 2 * (a - half) + 1) 0

/-- The effect of CH_TXB (44_channel.md R146): two draws a sample, in ascending sample order. -/
def transmit (bd bs : BufId) (s : State K) : State K :=
  let half := s.cap bs / 2
  (draws (2 * half) s).2.fillBuf bd (s.cap bs) (2 * half)
    (noisyWord (s.sbWord bs) (draws (2 * half) s).1 half)

/-- CH_TXB (44_channel.md R146). -/
def execChTxb (bd bs : BufId) (s : State K) : Result K :=
  command s
    [(decide (bd = bs), .illegal), (!s.chValid, .notConstructed),
      (decide (s.cap bs = 0), .notConstructed)]
    (transmit bd bs s)

/-- CH_Q (44_channel.md R147). -/
def execChQ (s : State K) : Result K :=
  command s [(!s.chValid, .notConstructed)] { s with qr := .fin s.sigma }

/-- `10·log10(1/σ²)`, or +inf at sigma = 0 (44_channel.md R148). -/
def logQuality (sigma : K) : NumX K :=
  if sigma = 0 then .posInf else .fin (10 * log10 (1 / (sigma * sigma)))

/-- CH_LOGQ (44_channel.md R148). -/
def execChLogq (s : State K) : Result K :=
  command s [(!s.chValid, .notConstructed)] { s with qr := logQuality s.sigma }

end Sys2Proof.Machine
end

