-- ==== Sys2Proof/Machine/Control.lean ====
section
/-! DEFINITION. Sequencing (45_control.md): HALT. -/

namespace Sys2Proof.Machine

/-- HALT (45_control.md R161): the run is over; PC stays at the HALT. -/
def execHalt {K : Type} (s : State K) : Result K := .next { s with run := .done }

end Sys2Proof.Machine
end

