-- ==== Sys2Proof/Machine/Demodulator.lean ====
section
/-! DEFINITION. The demodulator (43_demodulator.md): the nearest-point search, the bit-packing engine,
the soft-decision LLR engine, and DEM_BIND, DEMOD, DEMOD_LLR, LLR_BIT. -/

namespace Sys2Proof.Machine

variable {K : Type}

/-- DEM_BIND (43_demodulator.md R120). -/
def execDemBind (e : Order) (s : State K) : Result K :=
  command s (bindChecks e s) { s with demBound := true }

/-- Squared Euclidean distance (43_demodulator.md R121). -/
def dist2 [Field K] (x p : Point K) : K := (x.i - p.i) * (x.i - p.i) + (x.q - p.q) * (x.q - p.q)

/-- One comparison of the search (43_demodulator.md R122): strictly less replaces, so the first
minimum is kept. -/
def keepNearer [LinearOrder K] (d : Nat → K) (best : Nat × K) (idx : Nat) : Nat × K :=
  if d idx < best.2 then (idx, d idx) else best

/-- The search over indices `0..m-1` (43_demodulator.md R122): index 0 first, then `1..m-1`. -/
def nearestOf [LinearOrder K] (d : Nat → K) (m : Nat) : Nat :=
  ((List.range' 1 (m - 1)).foldl (keepNearer d) (0, d 0)).1

/-- `nearest(x)` over the map in CT (43_demodulator.md R122). -/
def State.nearest [Field K] [LinearOrder K] [Inhabited K] (s : State K) (x : Point K) : Nat :=
  nearestOf (fun idx => dist2 x (s.ctPoint idx)) (points s.order)

/-- The bit at stream position `p` of the packed values `v`, each of `k` bits (43_demodulator.md R123):
bit `j = p mod k` of value `p div k`, counted from the most significant; 0 beyond the last value. -/
def packedBit (k : Nat) (v : List Nat) (p : Nat) : Bool :=
  decide (p < v.length * k) && (v.getD (p / k) 0).testBit (k - 1 - p % k)

/-- Byte `a` of the packed stream (43_demodulator.md R123): positions `8a..8a+7`. -/
def packedByte (k : Nat) (v : List Nat) (a : Nat) : Byte :=
  BitVec.ofNat 8 (fromMsb 8 (fun i => packedBit k v (8 * a + i)))

/-- `pack(v, nsym, k)` (43_demodulator.md R123): BOUT and BOUT_LEN. -/
def pack (k : Nat) (v : List Nat) (s : State K) : State K :=
  { s with
    bout := s.bout.fill (ceilDiv (v.length * k) 8) (packedByte k v)
    boutLen := ceilDiv (v.length * k) 8 }

/-- The hard decisions of all `CAP[b]/2` samples of a buffer (43_demodulator.md R124). -/
def State.hardDecisions [Field K] [LinearOrder K] [Inhabited K] (s : State K) (b : BufId) : List Nat :=
  (List.range (s.cap b / 2)).map (fun n => s.nearest (s.sample b n))

/-- DEMOD (43_demodulator.md R124). -/
def execDemod [Field K] [LinearOrder K] [Inhabited K] (bs : BufId) (s : State K) : Result K :=
  command s [(!s.demBound, .cfgNoMapper), (decide (s.cap bs = 0), .notConstructed)]
    (pack (bps s.order) (s.hardDecisions bs) s)

/-- The least value of `d` over a list of indices; an empty list, which no run meets, gives 0 (log
entry 11). -/
def minOver [Zero K] [LinearOrder K] (d : Nat → K) : List Nat → K
  | [] => 0
  | x :: xs => xs.foldl (fun best idx => if d idx < best then d idx else best) (d x)

/-- `d0` and `d1` (43_demodulator.md R125): the least squared distance from `x` to the points whose
index has bit `pos` equal to `b`. -/
def State.subsetDist [Field K] [LinearOrder K] [Inhabited K] (s : State K) (x : Point K)
    (pos : Nat) (b : Bool) : K :=
  minOver (fun idx => dist2 x (s.ctPoint idx))
    ((List.range (points s.order)).filter (fun idx => idx.testBit pos == b))

/-- `s2 = max(SIGMA * SIGMA, SIGMA2_FLOOR)` (43_demodulator.md R125). -/
def State.flooredSigma2 [Field K] [LinearOrder K] (s : State K) : K :=
  if s.sigma * s.sigma < s.params.sigma2Floor then s.params.sigma2Floor else s.sigma * s.sigma

/-- `llr(x, pos) = (d1 - d0) / (2 * s2)` (43_demodulator.md R125), one formula for every order
(R127). `pos` counts from the least significant bit of the index (R126). -/
def State.llrOf [Field K] [LinearOrder K] [Inhabited K] (s : State K) (x : Point K) (pos : Nat) : K :=
  (s.subsetDist x pos true - s.subsetDist x pos false) / (2 * s.flooredSigma2)

/-- `slice(l)` (43_demodulator.md R127): 1 below zero, else 0. -/
def slice [Field K] [LinearOrder K] (l : K) : Bool := decide (l < 0)

/-- Entry `t` of the soft output for buffer `b` (43_demodulator.md R126): symbol `t div k`, stream
position `j = t mod k`, index bit `k - 1 - j`. -/
def State.softEntry [Field K] [LinearOrder K] [Inhabited K] (s : State K) (b : BufId) (t : Nat) : K :=
  s.llrOf (s.sample b (t / bps s.order)) (bps s.order - 1 - t % bps s.order)

/-- The indices sliced from the LLR memory (43_demodulator.md R128). -/
def State.slicedIndices [Field K] [LinearOrder K] [Inhabited K] (s : State K) (nsym : Nat) : List Nat :=
  (List.range nsym).map
    (fun n => fromMsb (bps s.order) (fun j => slice (s.llrEntry (n * bps s.order + j))))

/-- The effect of DEMOD_LLR on LLR and LLR_LEN (43_demodulator.md R128). -/
def softOutput [Field K] [LinearOrder K] [Inhabited K] (b : BufId) (s : State K) : State K :=
  { s with
    llr := s.llr.fill (s.cap b / 2 * bps s.order) (s.softEntry b)
    llrLen := s.cap b / 2 * bps s.order }

/-- DEMOD_LLR (43_demodulator.md R128): with `h` also the sliced bits, packed. -/
def execDemodLlr [Field K] [LinearOrder K] [Inhabited K] (bs : BufId) (h : Bool) (s : State K) : Result K :=
  command s
    [(!s.demBound, .cfgNoMapper), (decide (s.cap bs = 0), .notConstructed),
      (!s.chValid, .notConstructed)]
    (if h then
      pack (bps s.order) ((softOutput bs s).slicedIndices (s.cap bs / 2)) (softOutput bs s)
    else softOutput bs s)

/-- LLR_BIT (43_demodulator.md R129). -/
def execLlrBit [Field K] [LinearOrder K] [Inhabited K] (bs : BufId) (idx : BitVec 16)
    (pos : BitVec 4) (s : State K) : Result K :=
  command s
    [(!s.demBound, .cfgNoMapper), (decide (s.cap bs = 0), .notConstructed),
      (!s.chValid, .notConstructed), (decide (s.cap bs / 2 ≤ idx.toNat), .boundsIndex),
      (decide (bps s.order ≤ pos.toNat), .boundsIndex)]
    { s with qr := .fin (s.llrOf (s.sample bs idx.toNat) pos.toNat) }

end Sys2Proof.Machine
end

