-- ==== Sys2Proof/Machine/Mapper.lean ====
section
/-! DEFINITION. The constellation mapper (40_mapper.md): the Gray-coded construction R80 to R84 and the
commands MAP_INIT, MAP_INSTALL, MAP_ORDER, MAP_BPS, MAP_GET. -/

namespace Sys2Proof.Machine

/-- The binary-reflected Gray code `idx XOR (idx >> 1)` (40_mapper.md R81). -/
def gray (idx : Nat) : Nat := idx ^^^ (idx >>> 1)

/-- `axis(s, n)` (40_mapper.md R83): the low `n-1` bits give the odd magnitude, the top bit the
sign. -/
def axisValue (sub n : Nat) : Int :=
  let magnitude : Int := 2 * ((sub % 2 ^ (n - 1) : Nat) : Int) + 1
  if sub.testBit (n - 1) then magnitude else -magnitude

/-- `kx = ceil(k/2)`, the bits that govern the in-phase axis (40_mapper.md R80). -/
def inPhaseBits (o : Order) : Nat := ceilDiv (bps o) 2

/-- `ky = floor(k/2)`, the bits that govern the quadrature axis (40_mapper.md R80). -/
def quadratureBits (o : Order) : Nat := bps o / 2

/-- `gen_default(o, idx)` (40_mapper.md R84): the low `kx` bits of the Gray code are the in-phase
sub-index, the next `ky` bits the quadrature sub-index (R82). -/
def genDefault (o : Order) (idx : Nat) (K : Type := QNum) [Field K] : Point K :=
  let g := gray idx
  { i := axisValue (g % 2 ^ inPhaseBits o) (inPhaseBits o)
    q := axisValue ((g >>> inPhaseBits o) % 2 ^ quadratureBits o) (quadratureBits o) }

variable {K : Type} [Field K] [LinearOrder K] [Inhabited K]

/-- MAP_INIT (40_mapper.md R85). -/
def execMapInit (o : Order) (s : State K) : Result K :=
  command s [(decide (o = .code3), .illegal)]
    { s with
      ct := s.ct.fill (points o) (fun idx => genDefault o idx K)
      order := o
      mapValid := true
      custom := false
      modBound := false
      demBound := false }

/-- MAP_INSTALL (40_mapper.md R86). -/
def execMapInstall (s : State K) : Result K :=
  command s [(!s.mapValid, .notConstructed)]
    { s with ct := s.ct.fill (points s.order) s.gtPoint, custom := true }

/-- MAP_ORDER (40_mapper.md R87): RES gets the order code, zero-extended. -/
def execMapOrder (s : State K) : Result K :=
  command s [(!s.mapValid, .notConstructed)] { s with res := s.order.code.setWidth 32 }

/-- MAP_BPS (40_mapper.md R88). -/
def execMapBps (s : State K) : Result K :=
  command s [(!s.mapValid, .notConstructed)] { s with res := BitVec.ofNat 32 (bps s.order) }

/-- MAP_GET (40_mapper.md R89). -/
def execMapGet (idx : BitVec 16) (s : State K) : Result K :=
  command s
    [(!s.mapValid, .notConstructed), (decide (points s.order ≤ idx.toNat), .boundsIndex)]
    { s with di := (s.ctPoint idx.toNat).i, dq := (s.ctPoint idx.toNat).q }

end Sys2Proof.Machine
end

