-- ==== Sys2Proof/Machine/Modulator.lean ====
section
/-! DEFINITION. The modulator and its bit-unpacking engine (42_modulator.md): MOD_BIND, MODULATE. -/

namespace Sys2Proof.Machine

variable {K : Type}

/-- MOD_BIND (42_modulator.md R110). -/
def execModBind (e : Order) (s : State K) : Result K :=
  command s (bindChecks e s) { s with modBound := true }

/-- `group(n)` (42_modulator.md R111): the `k` bits of the input stream at positions `n*k..n*k+k-1`,
first bit most significant. -/
def State.group (s : State K) (n : Nat) : Nat :=
  fromMsb (bps s.order) (fun j => streamBit s.binByte s.binLen (n * bps s.order + j))

/-- `nsym = ceil_div(8 * BIN_LEN, k)` (42_modulator.md R112). -/
def State.symbolCount (s : State K) : Nat := ceilDiv (8 * s.binLen) (bps s.order)

/-- Word `a` of the buffer MODULATE makes of `nsym` symbols (42_modulator.md R113): in-phase parts,
then quadrature parts, of `CT[group(n)]`. -/
def State.modulatedWord [Inhabited K] (s : State K) (nsym a : Nat) : K :=
  if a < nsym then (s.ctPoint (s.group a)).i else (s.ctPoint (s.group (a - nsym))).q

/-- MODULATE (42_modulator.md R113). -/
def execModulate [Inhabited K] (bd : BufId) (s : State K) : Result K :=
  command s
    [(!s.modBound, .cfgNoMapper), (decide (s.symbolCount = 0), .boundsLength),
      (decide (s.params.capMax < 2 * s.symbolCount), .boundsLength)]
    (s.fillBuf bd (2 * s.symbolCount) (2 * s.symbolCount) (s.modulatedWord s.symbolCount))

end Sys2Proof.Machine
end

