-- ==== Sys2Proof/Machine/SampleBuffer.lean ====
section
/-! DEFINITION. The packed complex sample buffers (41_buffer.md): BUF_MAKE, BUF_STORE, BUF_LOAD,
BUF_COPY. -/

namespace Sys2Proof.Machine

variable {K : Type} [Inhabited K]

/-- BUF_MAKE (41_buffer.md R101). The words of the new buffer are unspecified until stored, even where
an older buffer's values remain (20_memory.md R54): they are forgotten, and the buffer takes a fresh
key for them (log entry 4). -/
def execBufMake (bd : BufId) (len : BitVec 16) (s : State K) : Result K :=
  command s
    [(decide (len.toNat = 0) || decide (len.toNat % 2 = 1), .boundsLength),
      (decide (s.params.capMax < len.toNat), .boundsLength)]
    (s.makeBuf bd len.toNat)

/-- BUF_STORE (41_buffer.md R102): DI to word `n`, DQ to word `CAP/2 + n`. -/
def execBufStore (bd : BufId) (idx : BitVec 16) (s : State K) : Result K :=
  command s
    [(decide (s.cap bd = 0), .notConstructed), (decide (s.cap bd / 2 ≤ idx.toNat), .boundsIndex)]
    (s.setBuf bd
      { s.buf bd with
        words := ((s.buf bd).words.write idx.toNat s.di).write (s.cap bd / 2 + idx.toNat) s.dq })

/-- BUF_LOAD (41_buffer.md R103). -/
def execBufLoad (bs : BufId) (idx : BitVec 16) (s : State K) : Result K :=
  command s
    [(decide (s.cap bs = 0), .notConstructed), (decide (s.cap bs / 2 ≤ idx.toNat), .boundsIndex)]
    { s with di := (s.sample bs idx.toNat).i, dq := (s.sample bs idx.toNat).q }

/-- BUF_COPY (41_buffer.md R104): word for word, and nothing when source and destination are one. -/
def execBufCopy (bd bs : BufId) (s : State K) : Result K :=
  command s [(decide (s.cap bs = 0), .notConstructed)]
    (if bd = bs then s else s.fillBuf bd (s.cap bs) (s.cap bs) (s.sbWord bs))

end Sys2Proof.Machine
end

