-- ==== Sys2Proof/Machine/Dispatch.lean ====
section
/-! DEFINITION. One arm per command (30_encoding.md R63). -/

namespace Sys2Proof.Machine

def exec (i : Instr) (s : State) : Host.Outcome State Fault Refusal :=
  match i with
  | .mapInit o => Sys2Proof.Machine.execMapInit o s
  | .mapInstall => Sys2Proof.Machine.execMapInstall s
  | .mapOrder => Sys2Proof.Machine.execMapOrder s
  | .mapBps => Sys2Proof.Machine.execMapBps s
  | .mapGet idx => Sys2Proof.Machine.execMapGet idx s
  | .bufMake bd len => Sys2Proof.Machine.execBufMake bd len s
  | .bufStore bd idx => Sys2Proof.Machine.execBufStore bd idx s
  | .bufLoad bs idx => Sys2Proof.Machine.execBufLoad bs idx s
  | .bufCopy bd bs => Sys2Proof.Machine.execBufCopy bd bs s
  | .modBind e => Sys2Proof.Machine.execModBind e s
  | .modulate bd => Sys2Proof.Machine.execModulate bd s
  | .demBind e => Sys2Proof.Machine.execDemBind e s
  | .demod bs => Sys2Proof.Machine.execDemod bs s
  | .demodLlr bs h => Sys2Proof.Machine.execDemodLlr bs h s
  | .llrBit bs idx pos => Sys2Proof.Machine.execLlrBit bs idx pos s
  | .chSet => Sys2Proof.Machine.execChSet s
  | .chTxs => Sys2Proof.Machine.execChTxs s
  | .chTxb bd bs => Sys2Proof.Machine.execChTxb bd bs s
  | .chQ => Sys2Proof.Machine.execChQ s
  | .chLogq => Sys2Proof.Machine.execChLogq s
  | .halt => Sys2Proof.Machine.execHalt s

end Sys2Proof.Machine
end

