-- ==== Sys2Proof/Machine/Step.lean ====
section
/-! DEFINITION. One step of the core (45_control.md R160). -/

namespace Sys2Proof.Machine

/-- One step of the core (45_control.md R160). While RUN is not RUNNING the core takes no step and keeps
its state (60_exceptions.md R188): the model answers the same state (log entry 6). -/
def step (s : State) : Host.Outcome State Fault Refusal :=
  match s.run with
  | .running =>
    if pastEnd s then takeIllegal s
    else
      match fetch s with
      | .ok i => exec i s
      | .error _ => takeIllegal s
  | .idle => .next s
  | .done => .next s
  | .faulted => .next s

/-- The word placed where the next step fetches, by the host's load and START (45_control.md R166; log
entry 6): that element of CM, a PC inside CM, RUN = RUNNING, and nothing else. -/
def State.withFetchWord (s : State) (nbits w : Nat) : State :=
  { s with
    cm := s.cm.write s.fetchPoint (tableWord nbits w)
    pc := s.fetchPoint
    run := .running }

end Sys2Proof.Machine
end

