-- ==== Sys2Proof/Machine/Flags.lean ====
section
/-! DEFINITION. The status flags. QMC has no arithmetic condition codes (10_state.md R28): the flags are
fields of State, each written by the commands R28 names, and are collected in the word STATUS. -/

namespace Sys2Proof.Machine

/-- The code of RUN (10_state.md R15). -/
def Run.code : Run → BitVec 2
  | .idle => 0
  | .running => 1
  | .done => 2
  | .faulted => 3

/-- The code of a fault (60_exceptions.md R170); code 7 is never written. -/
def CmdFault.code : CmdFault → BitVec 3
  | .cfgNoMapper => 1
  | .cfgWrongOrder => 2
  | .boundsLength => 3
  | .boundsIndex => 4
  | .illegal => 5
  | .notConstructed => 6

/-- The content of ERR (10_state.md R16): 0 when no fault stopped the run. -/
def errCode : Option CmdFault → BitVec 3
  | none => 0
  | some f => f.code

/-- `STATUS` (10_state.md R28): bits 0 MAP_VALID, 1 CUSTOM, 2 MOD_BOUND, 3 DEM_BOUND, 4 CH_VALID,
6:5 ORDER, 7 zero, 9:8 RUN, 31:10 zero. -/
def statusWord {K : Type} (s : State K) : Word :=
  (0 : BitVec 22) ++ s.run.code ++ (0 : BitVec 1) ++ s.order.code ++ BitVec.ofBool s.chValid ++
    BitVec.ofBool s.demBound ++ BitVec.ofBool s.modBound ++ BitVec.ofBool s.custom ++
    BitVec.ofBool s.mapValid

end Sys2Proof.Machine
end

