-- ==== Sys2Proof/Machine/HostPort.lean ====
section
/-! DEFINITION. The host port: the register map (10_state.md R29, R30), the host's access to the memory
spaces (20_memory.md R40, R52, 70_reset_and_hazards.md R204), START (45_control.md R166) and RESET
(70_reset_and_hazards.md R190). These are the host's moves, between commands; no step of the core makes
one. -/

namespace Sys2Proof.Machine

/-- What a register transfers (10_state.md R29): an integer register 32 bits, a `Num` register one
`Num`, QR one `NumX`. -/
inductive RegVal (K : Type := QNum) where
  | u32 (w : Word)
  | num (x : K)
  | numX (x : NumX K)
deriving DecidableEq, Repr

variable {K : Type}

/-- An integer register's content, zero-extended (10_state.md R29). -/
def zext32 (n : Nat) : RegVal K := .u32 (BitVec.ofNat 32 n)

/-- What the host reads at a register number (10_state.md R29); a number not listed reads 0. CTRL (0x1F)
is write-only and is not read through this view (`hostReadReg`). -/
def regView (n : Nat) (s : State K) : RegVal K :=
  match n with
  | 0x00 => .u32 (statusWord s)
  | 0x01 => .u32 ((errCode s.err).setWidth 32)
  | 0x02 => zext32 s.epc
  | 0x03 => zext32 s.pc
  | 0x04 => .u32 s.res
  | 0x05 => zext32 s.binLen
  | 0x06 => zext32 s.boutLen
  | 0x07 => zext32 s.llrLen
  | 0x08 => zext32 s.cursor
  | 0x09 => zext32 (s.cap 0)
  | 0x0A => zext32 (s.cap 1)
  | 0x0B => zext32 (s.cap 2)
  | 0x0C => zext32 (s.cap 3)
  | 0x10 => .num s.di
  | 0x11 => .num s.dq
  | 0x12 => .numX s.qr
  | 0x13 => .num s.sigma
  | _ => .u32 0

/-- A host read of a register: no move during a run (20_memory.md R52), none of CTRL (10_state.md
R30). -/
def hostReadReg (n : Nat) (s : State K) : Except Fault (RegVal K) :=
  if s.run = .running then .error .hostAccessDuringRun
  else if n = 0x1F then .error .writeOnlyRegister
  else .ok (regView n s)

/-- START (45_control.md R166): only from IDLE or DONE; else ignored. -/
def hostStart (s : State K) : State K :=
  if s.run = .idle ∨ s.run = .done then { s with pc := 0, run := .running } else s

/-- RESET (70_reset_and_hazards.md R190), from any state: the registers of 10_state.md R31, every memory
unspecified anew. The parameters and the oracle's fixed answers are no state of the core and stay. -/
def hostReset [Zero K] (s : State K) : State K := { State.afterReset s.params s.fresh with oracle := s.oracle }

/-- The memory spaces (20_memory.md R40). -/
inductive Space where
  | cm
  | bin
  | bout
  | llr
  | sb (b : BufId)
  | ct
  | gt
  | nz
deriving DecidableEq, Repr

/-- An element of a memory space. -/
inductive Element (K : Type := QNum) where
  | word (w : Word)
  | byte (b : Byte)
  | num (x : K)
  | point (p : Point K)
deriving DecidableEq, Repr

/-- How many elements a space has (20_memory.md R40; `LLR_MAX = 3*CAP_MAX`, 00_scope.md R5). -/
def spaceSize (p : Params K) : Space → Nat
  | .cm => p.cmSize
  | .bin => p.bytesMax
  | .bout => p.bytesMax
  | .llr => 3 * p.capMax
  | .sb _ => p.capMax
  | .ct => 64
  | .gt => 64
  | .nz => p.noiseLen

/-- `MemRead(SPACE, a)`, as the host reads it. DESIGN CHOICE (log entry 12): CM and BIN are among the spaces
the host reads. -/
def memView [Inhabited K] (sp : Space) (a : Nat) (s : State K) : Element K :=
  match sp with
  | .cm => .word (s.cmWord a)
  | .bin => .byte (s.binByte a)
  | .bout => .byte (s.boutByte a)
  | .llr => .num (s.llrEntry a)
  | .sb b => .num (s.sbWord b a)
  | .ct => .point (s.ctPoint a)
  | .gt => .point (s.gtPoint a)
  | .nz => .num (s.nzValue a)

/-- A host read of an element: no move during a run (20_memory.md R52), and only inside the space (R41). Every
space can be read, CM and BIN too (DESIGN CHOICE, log entry 12: R40 names the host as a reader of neither). -/
def hostReadMem [Inhabited K] (sp : Space) (a : Nat) (s : State K) : Except Fault (Element K) :=
  if s.run = .running then .error .hostAccessDuringRun
  else if spaceSize s.params sp ≤ a then .error .noSuchElement
  else .ok (memView sp a s)

/-- The spaces that are read-only to the host (20_memory.md R40, 70_reset_and_hazards.md R204). -/
inductive ReadOnlySpace where
  | bout
  | llr
  | sb (b : BufId)
  | ct
  | nz
deriving DecidableEq, Repr

/-- What the host can write. -/
inductive HostAction (K : Type := QNum) where
  /-- A register by its number (10_state.md R29). -/
  | writeReg (n : Nat) (v : RegVal K)
  /-- An element of CM. -/
  | writeCm (a : Nat) (w : Word)
  /-- An element of BIN. -/
  | writeBin (a : Nat) (b : Byte)
  /-- An element of GT. -/
  | writeGt (a : Nat) (p : Point K)
  /-- An element of a space that is read-only to the host (70_reset_and_hazards.md R204). -/
  | writeOther (sp : ReadOnlySpace) (a : Nat) (v : Element K)
deriving DecidableEq, Repr

/-- START. -/
abbrev HostAction.start : HostAction := .writeReg 0x1F (.u32 1)

/-- RESET. -/
abbrev HostAction.reset : HostAction := .writeReg 0x1F (.u32 2)

/-- A write to CTRL (10_state.md R30): 1 is START, 2 is RESET, any other value is ignored. -/
def writeCtrl [Zero K] (w : Word) (s : State K) : State K :=
  if w = 1 then hostStart s else if w = 2 then hostReset s else s

/-- A write to BIN_LEN: above BYTES_MAX it is refused and the register keeps its value (10_state.md
R22). -/
def writeBinLen (w : Word) (s : State K) : State K :=
  if s.params.bytesMax < w.toNat then s else { s with binLen := w.toNat }

/-- A host write of a register while the core is not running (10_state.md R29, R30): read-only and
reserved registers ignore it. A value of another kind than a writable register's is refused (log
entry 8). -/
def hostWriteReg [Zero K] (n : Nat) (v : RegVal K) (s : State K) : Result K :=
  match n, v with
  | 0x05, .u32 w => .next (writeBinLen w s)
  | 0x10, .num x => .next { s with di := x }
  | 0x11, .num x => .next { s with dq := x }
  | 0x1F, .u32 w => .next (writeCtrl w s)
  | 0x05, _ => .refused .registerKind
  | 0x10, _ => .refused .registerKind
  | 0x11, _ => .refused .registerKind
  | 0x1F, _ => .refused .registerKind
  | _, _ => .next s

/-- A host write of an element inside its space, else no such element (20_memory.md R41). -/
def hostWriteMem (sp : Space) (a : Nat) (s t : State K) : Result K :=
  if spaceSize s.params sp ≤ a then .fault .noSuchElement else .next t

/-- A move of the host while the core is not running. -/
def hostWrite [Zero K] (h : HostAction K) (s : State K) : Result K :=
  match h with
  | .writeReg n v => hostWriteReg n v s
  | .writeCm a w => hostWriteMem .cm a s { s with cm := s.cm.write a w }
  | .writeBin a b => hostWriteMem .bin a s { s with bin := s.bin.write a b }
  | .writeGt a p => hostWriteMem .gt a s { s with gt := s.gt.write a p }
  | .writeOther _ _ _ => .next s

/-- A move of the host during a run: a write to CTRL alone, where 2 is RESET and any other value is
ignored (10_state.md R30, 45_control.md R166); anything else is no move (20_memory.md R52; log entry
7). -/
def hostWriteDuringRun [Zero K] (h : HostAction K) (s : State K) : Result K :=
  match h with
  | .writeReg 0x1F (.u32 w) => .next (writeCtrl w s)
  | .writeReg _ _ => .fault .hostAccessDuringRun
  | .writeCm _ _ => .fault .hostAccessDuringRun
  | .writeBin _ _ => .fault .hostAccessDuringRun
  | .writeGt _ _ => .fault .hostAccessDuringRun
  | .writeOther _ _ _ => .fault .hostAccessDuringRun

/-- A move of the host (20_memory.md R52, 70_reset_and_hazards.md R204). -/
def hostMove [Zero K] (h : HostAction K) (s : State K) : Result K :=
  if s.run = .running then hostWriteDuringRun h s else hostWrite h s

end Sys2Proof.Machine
end

