-- ==== Sys2Proof/Safety.lean ====
section
/-! DEFINITION. What the claims are stated in: the invariant of the machine, the states it can reach, what
a run and its success are, and which buffer a command writes. -/

namespace Sys2Proof

/-- The bounds of the parameters (00_scope.md R5). -/
abbrev Params.Ok (p : Params) : Prop :=
  1 ≤ p.noiseLen ∧ p.noiseLen ≤ 65535 ∧
  2 ≤ p.capMax ∧ p.capMax ≤ 65534 ∧ p.capMax % 2 = 0 ∧
  ceilDiv (3 * p.capMax) 8 ≤ p.bytesMax ∧ p.bytesMax ≤ 65535 ∧
  1 ≤ p.cmSize ∧ p.cmSize ≤ 65535 ∧
  0 < p.sigma2Floor

/-- The buffer a command writes, if it writes one (10_state.md R21). -/
def Instr.bufferWritten : Instr → Option BufId
  | .bufMake bd _ => some bd
  | .bufStore bd _ => some bd
  | .bufCopy bd _ => some bd
  | .modulate bd => some bd
  | .chTxb bd _ => some bd
  | .mapInit _ => none
  | .mapInstall => none
  | .mapOrder => none
  | .mapBps => none
  | .mapGet _ => none
  | .bufLoad _ _ => none
  | .modBind _ => none
  | .demBind _ => none
  | .demod _ => none
  | .demodLlr _ _ => none
  | .llrBit _ _ _ => none
  | .chSet => none
  | .chTxs => none
  | .chQ => none
  | .chLogq => none
  | .halt => none

namespace Machine

/-- A space in canonical form, its indexes inside the space's size (20_memory.md R41). -/
abbrev Memory.Ok {α : Type} (m : Memory α) (size : Nat) : Prop := m.wf ∧ m.below size

/-- PC and EPC stay inside 16 bits; ERR is set exactly in FAULTED (10_state.md R14, R16). -/
abbrev State.ControlOk (s : State) : Prop :=
  s.pc ≤ s.params.cmSize ∧ s.epc ≤ s.params.cmSize ∧ (s.run = .faulted ↔ s.err ≠ none)

/-- ORDER is 3 exactly while MAP_VALID = 0; a binding needs a mapper (10_state.md R17, R20); while a mapper
exists every entry of its map has been written, and is the default one unless CUSTOM (R17, R18). -/
abbrev State.MapperOk (s : State) : Prop :=
  (s.mapValid = true ↔ s.order ≠ .code3) ∧
  (s.modBound = true → s.mapValid = true) ∧ (s.demBound = true → s.mapValid = true) ∧
  (s.custom = true → s.mapValid = true) ∧
  (s.mapValid = true → ∀ idx < points s.order, (s.ct.read idx).isSome = true) ∧
  (s.mapValid = true → s.custom = false →
    ∀ idx < points s.order, s.ct.read idx = some (genDefault s.order idx))

/-- A capacity is 0 or even and 2..CAP_MAX (10_state.md R21). -/
abbrev State.BuffersOk (s : State) : Prop :=
  ∀ b : BufId,
    ((s.buf b).cap = 0 ∨
      (2 ≤ (s.buf b).cap ∧ (s.buf b).cap % 2 = 0 ∧ (s.buf b).cap ≤ s.params.capMax)) ∧
    (s.buf b).words.Ok s.params.capMax ∧ (s.buf b).era < s.fresh

/-- The lengths fit their memories (10_state.md R22 to R24). -/
abbrev State.StreamsOk (s : State) : Prop :=
  s.binLen ≤ s.params.bytesMax ∧ s.boutLen ≤ s.params.bytesMax ∧
  s.llrLen ≤ 3 * s.params.capMax ∧
  s.bin.Ok s.params.bytesMax ∧ s.bout.Ok s.params.bytesMax ∧ s.llr.Ok (3 * s.params.capMax)

/-- Sigma is not negative, the cursor is inside the cache; while a channel exists the cache is full, and
all zero at sigma = 0 (10_state.md R25, R26; 44_channel.md R141). -/
abbrev State.ChannelOk (s : State) : Prop :=
  0 ≤ s.sigma ∧ s.cursor < s.params.noiseLen ∧ s.nz.Ok s.params.noiseLen ∧
  (s.chValid = true → ∀ t < s.params.noiseLen, (s.nz.read t).isSome = true) ∧
  (s.chValid = true → s.sigma = 0 → ∀ t < s.params.noiseLen, s.nz.read t = some 0)

/-- The other spaces are canonical and inside their sizes; the key in use is an old one. -/
abbrev State.SpacesOk (s : State) : Prop :=
  s.cm.Ok s.params.cmSize ∧ s.ct.Ok 64 ∧ s.gt.Ok 64 ∧ s.era < s.fresh

/-- The invariant of the machine: what 10_state.md says holds of its registers and memories. -/
abbrev State.Inv (s : State) : Prop :=
  s.params.Ok ∧ s.ControlOk ∧ s.MapperOk ∧ s.BuffersOk ∧ s.StreamsOk ∧ s.ChannelOk ∧ s.SpacesOk

/-- The states the machine can reach: from power-on by steps of the core and moves of the host. -/
inductive Reachable (p : Params) : State → Prop
  | powerOn : Reachable p (State.resetWith p)
  | core {s t : State} : Reachable p s → step s = .next t → Reachable p t
  | host {s t : State} (h : HostAction) : Reachable p s → hostMove h s = .next t → Reachable p t

/-- A run is over (45_control.md R162). -/
abbrev State.RunOver (s : State) : Prop := s.run = .done ∨ s.run = .faulted

/-- A run was successful (45_control.md R162). -/
abbrev State.Successful (s : State) : Prop := s.run = .done ∧ s.err = none

/-- Commands executed one after another, whatever CM holds. -/
def execAll : List Instr → State → Result
  | [], s => .next s
  | i :: rest, s =>
    match exec i s with
    | .next t => execAll rest t
    | .fault r => .fault r
    | .refused r => .refused r

end Machine
end Sys2Proof
end

