-- ==== Sys2Proof/Certificates/Slice0/Obligations.lean ====
section
/-! DEFINITION. The statements for the provers. Each docstring names the rules of spec/ it formalises. A
statement about `exec i s` holds in every state `s`, reachable or not, unless it says otherwise; the
parameters of 00_scope.md R5 are `s.params`, so it holds for every choice of them. -/

open Sys2Proof Sys2Proof.Machine

/-! ### Encoding -/

/-- The 21 words of the table of 95_test_vectors.md section 2.7 decode as it says, and so do three words of its
sections 2.1 (MAP_GET), 1 (V4, BUF_LOAD) and 3 (P2, CH_LOGQ). -/
def Obligations.VectorWordsDecode : Prop :=
  decode 0x01000002 = .ok (.mapInit .qam64) ∧
  decode 0x0500002A = .ok (.mapGet 42) ∧
  decode 0x10C0FFFE = .ok (.bufMake 3 65534) ∧
  decode 0x12200001 = .ok (.bufLoad 2 1) ∧
  decode 0x13E00000 = .ok (.bufCopy 3 2) ∧
  decode 0x20000003 = .ok (.modBind .code3) ∧
  decode 0x21400000 = .ok (.modulate 1) ∧
  decode 0x32110000 = .ok (.demodLlr 1 true) ∧
  decode 0x333F0005 = .ok (.llrBit 3 5 15) ∧
  decode 0x42400000 = .ok (.chTxb 1 0) ∧
  decode 0x44000000 = .ok .chLogq ∧
  decode 0x7F000000 = .ok .halt ∧
  decode 0x01000003 = .error .orderThree ∧
  decode 0x01000004 = .error .nonzeroUnused ∧
  decode 0x01400000 = .error .nonzeroUnused ∧
  decode 0x00000000 = .error .unassignedOp ∧
  decode 0xFFFFFFFF = .error .unassignedOp ∧
  decode 0x06000000 = .error .unassignedOp ∧
  decode 0x10100002 = .error .nonzeroUnused ∧
  decode 0x13E00001 = .error .nonzeroUnused ∧
  decode 0x21100000 = .error .nonzeroUnused ∧
  decode 0x32120000 = .error .nonzeroUnused ∧
  decode 0x42500000 = .error .sameBuffer ∧
  decode 0x7F000001 = .error .nonzeroUnused

/-- 30_encoding.md R64, with the table of R63 written out as (match, mask): a word is a command exactly
when it matches a row and neither value condition holds; executing an illegal word raises Illegal and
does nothing else; the all-zero and the all-one word are illegal. -/
def Obligations.WordIsLegalExactlyWhenARowMatches : Prop :=
  (∀ w : Word, (∃ i, decode w = .ok i) ↔
    ((∃ row ∈ ([(0x01000000, 0xFFFFFFFC), (0x02000000, 0xFFFFFFFF), (0x03000000, 0xFFFFFFFF),
        (0x04000000, 0xFFFFFFFF), (0x05000000, 0xFFFF0000), (0x10000000, 0xFF3F0000),
        (0x11000000, 0xFF3F0000), (0x12000000, 0xFFCF0000), (0x13000000, 0xFF0FFFFF),
        (0x20000000, 0xFFFFFFFC), (0x21000000, 0xFF3FFFFF), (0x30000000, 0xFFFFFFFC),
        (0x31000000, 0xFFCFFFFF), (0x32000000, 0xFFCEFFFF), (0x33000000, 0xFFC00000),
        (0x40000000, 0xFFFFFFFF), (0x41000000, 0xFFFFFFFF), (0x42000000, 0xFF0FFFFF),
        (0x43000000, 0xFFFFFFFF), (0x44000000, 0xFFFFFFFF), (0x7F000000, 0xFFFFFFFF)] :
          List (Word × Word)), w &&& row.2 = row.1) ∧
      ¬ (w &&& 0xFFFFFFFC = 0x01000000 ∧ w.extractLsb' 0 2 = 3) ∧
      ¬ (w &&& 0xFF0FFFFF = 0x42000000 ∧ w.extractLsb' 22 2 = w.extractLsb' 20 2))) ∧
  (∀ s : State, s.run = .running → s.pc < s.params.cmSize →
    (¬ ∃ i, decode (s.cmWord s.pc) = .ok i) → step s = .next (raise .illegal s)) ∧
  (¬ ∃ i, decode 0x00000000 = .ok i) ∧ ¬ ∃ i, decode 0xFFFFFFFF = .ok i

/-- Every well-formed command, with every operand at every value its field admits, decodes from its own
word. -/
def Obligations.DecodingInvertsEncoding : Prop :=
  ∀ i : Instr, i.WellFormed → decode (encode i) = .ok i

/-- Every legal word is the encoding of the command it decodes to, so no command has two encodings and
no bit of a word is dropped. -/
def Obligations.LegalWordIsTheEncodingOfItsCommand : Prop :=
  ∀ (w : Word) (i : Instr), decode w = .ok i → encode i = w ∧ i.WellFormed

/-! ### The step, fault entry, the run -/

/-- 45_control.md R160: past the end of CM and at an illegal word the step raises Illegal; otherwise it
executes the decoded command; outside RUNNING the core takes no step, which the model writes as a step that
keeps the state (log entry 6). -/
def Obligations.StepFetchesDecodesAndExecutes : Prop :=
  ∀ s : State,
    (s.run = .running → s.params.cmSize ≤ s.pc → step s = .next (raise .illegal s)) ∧
    (s.run = .running → s.pc < s.params.cmSize →
      (∀ r, decode (s.cmWord s.pc) = .error r → step s = .next (raise .illegal s)) ∧
      ∀ i, decode (s.cmWord s.pc) = .ok i → step s = exec i s) ∧
    (s.run ≠ .running → step s = .next s)

/-- A word placed by `withFetchWord` is the next command the machine runs, in every state whose CM has at
least one word (00_scope.md R5). `withFetchWord` is the model's own form of the host's load and START (log entry
6). -/
def Obligations.PlacedWordRunsNext : Prop :=
  ∀ (s : State) (w : Nat) (i : Instr), 1 ≤ s.params.cmSize →
    decodeTableWord 32 w = some i →
    step (s.withFetchWord 32 w) = exec i (s.withFetchWord 32 w)

/-- 60_exceptions.md R177: fault entry writes ERR, EPC and RUN and nothing else, and a command that
faults has done nothing but that. -/
def Obligations.FaultingCommandDoesOnlyFaultEntry : Prop :=
  (∀ (f : CmdFault) (s : State),
    raise f s = { s with err := some f, epc := s.pc, run := .faulted }) ∧
  ∀ (i : Instr) (s t : State), s.run = .running → exec i s = .next t → t.run = .faulted →
    ∃ f, t = { s with err := some f, epc := s.pc, run := .faulted }

/-- Every command answers a next state; PC goes up by one, but stays at a HALT and at a faulting command,
and nothing else happens to it (10_state.md R14, 45_control.md R163). -/
def Obligations.CommandAdvancesPcUnlessItHaltsOrFaults : Prop :=
  ∀ (i : Instr) (s : State), s.run = .running → ∃ t, exec i s = .next t ∧
    ((t.run = .running ∧ i ≠ .halt ∧ t.pc = s.pc + 1) ∨
      (t.run = .done ∧ i = .halt ∧ t.pc = s.pc) ∨
      (t.run = .faulted ∧ i ≠ .halt ∧ t.pc = s.pc))

/-- 60_exceptions.md R170, the codes and the record: the host reads the code of the fault in ERR and the
PC of the faulting command in EPC, and code 7 is never there. -/
def Obligations.FaultCodesAreReadInErrAndEpc : Prop :=
  (∀ s : State,
    regView 0x01 (raise .cfgNoMapper s) = .u32 1 ∧ regView 0x01 (raise .cfgWrongOrder s) = .u32 2 ∧
    regView 0x01 (raise .boundsLength s) = .u32 3 ∧ regView 0x01 (raise .boundsIndex s) = .u32 4 ∧
    regView 0x01 (raise .illegal s) = .u32 5 ∧ regView 0x01 (raise .notConstructed s) = .u32 6 ∧
    ∀ f, regView 0x02 (raise f s) = .u32 (BitVec.ofNat 32 s.pc)) ∧
  ∀ s : State, (s.err = none → regView 0x01 s = .u32 0) ∧ regView 0x01 s ≠ .u32 7

/-- 60_exceptions.md R179: a faulted core takes no step and keeps ERR; no host move but RESET leaves
FAULTED, START among them. (No step: the model's step keeps the state, log entry 6.) -/
def Obligations.FaultedCoreStaysUntilReset : Prop :=
  ∀ s : State, s.run = .faulted →
    step s = .next s ∧ hostMove .start s = .next s ∧
    (∀ h t, h ≠ HostAction.reset → hostMove h s = .next t →
      t.run = .faulted ∧ t.err = s.err ∧ t.epc = s.epc) ∧
    ∃ t, hostMove .reset s = .next t ∧ t.run = .idle ∧ t.err = none

/-- 10_state.md R15: the codes of RUN in STATUS, and its only transitions: IDLE or DONE to RUNNING by
START, RUNNING to DONE by HALT, RUNNING to FAULTED by a fault, any state to IDLE by reset. -/
def Obligations.RunChangesOnlyByStartHaltFaultReset : Prop :=
  (Run.code .idle = 0 ∧ Run.code .running = 1 ∧ Run.code .done = 2 ∧ Run.code .faulted = 3) ∧
  (∀ (h : HostAction) (s t : State), hostMove h s = .next t →
    t.run = s.run ∨
    (h = .start ∧ (s.run = .idle ∨ s.run = .done) ∧ t.run = .running) ∨
    (h = .reset ∧ t.run = .idle)) ∧
  (∀ s t : State, step s = .next t →
    t.run = s.run ∨
    (s.run = .running ∧ fetch s = .ok .halt ∧ t.run = .done) ∨
    (s.run = .running ∧ (∃ f, t = raise f s) ∧ t.run = .faulted)) ∧
  (∀ s : State, s.run = .idle ∨ s.run = .done →
    ∃ t, hostMove .start s = .next t ∧ t.run = .running) ∧
  ∀ s : State, ∃ t, hostMove .reset s = .next t ∧ t.run = .idle

/-- A run ends: from a PC inside CM it reaches DONE or FAULTED within one step for each word that is left
and one for the end of CM (45_control.md R162, which the spec derives from its rules R160, R161). -/
def Obligations.EveryRunEnds : Prop :=
  ∀ s : State, s.run = .running → s.pc ≤ s.params.cmSize →
    ∃ n t, n ≤ s.params.cmSize - s.pc + 1 ∧ Host.Core.run Sys2Proof.core n s = .next t ∧ t.RunOver

/-! ### The invariant -/

/-- The invariant holds after power-on (the values of 10_state.md R31) for every choice of parameters inside
their bounds, and for the machine's own. -/
def Obligations.InvariantHoldsAfterPowerOn : Prop :=
  (∀ p : Params, p.Ok → (State.resetWith p).Inv) ∧ State.reset.Inv

/-- Every step of the core keeps the invariant. -/
def Obligations.EveryStepKeepsTheInvariant : Prop :=
  ∀ s t : State, s.Inv → step s = .next t → t.Inv

/-- Every move of the host, RESET and START among them, keeps the invariant. -/
def Obligations.EveryHostMoveKeepsTheInvariant : Prop :=
  ∀ (h : HostAction) (s t : State), s.Inv → hostMove h s = .next t → t.Inv

/-! ### Who writes what -/

/-- 10_state.md R13: RES is written by MAP_ORDER and MAP_BPS, QR by CH_Q, CH_LOGQ and LLR_BIT, neither by any
other command nor by the host (but for reset), and no command's effect depends on them: what a command leaves
is the same whatever RES and QR held, and what the five write there when they complete is too. -/
def Obligations.ResultRegistersAreWrittenByFiveAndReadByNone : Prop :=
  (∀ (i : Instr) (s t : State), exec i s = .next t →
    (t.res ≠ s.res → i = .mapOrder ∨ i = .mapBps) ∧
    (t.qr ≠ s.qr → i = .chQ ∨ i = .chLogq ∨ ∃ bs idx pos, i = .llrBit bs idx pos)) ∧
  (∀ (h : HostAction) (s t : State), hostMove h s = .next t → h ≠ .reset →
    t.res = s.res ∧ t.qr = s.qr) ∧
  ∀ (i : Instr) (s t : State) (r : Word) (q : NumX), exec i s = .next t →
    ∃ u, exec i { s with res := r, qr := q } = .next u ∧ { u with res := t.res, qr := t.qr } = t ∧
      ((∀ f, t ≠ raise f s) →
        (i = .mapOrder ∨ i = .mapBps → u.res = t.res) ∧
        (i = .chQ ∨ i = .chLogq ∨ (∃ bs idx pos, i = .llrBit bs idx pos) → u.qr = t.qr))

/-- 10_state.md R12: BUF_LOAD, MAP_GET and CH_TXS write DI and DQ; BUF_STORE, CH_TXS and, DI alone, CH_SET
read them; no other command reads or writes either, and the host reads and writes both while the core is
not running. -/
def Obligations.DataRegistersAreTouchedByFiveCommands : Prop :=
  (∀ (i : Instr) (s t : State), exec i s = .next t → t.di ≠ s.di ∨ t.dq ≠ s.dq →
    (∃ bs idx, i = .bufLoad bs idx) ∨ (∃ idx, i = .mapGet idx) ∨ i = .chTxs) ∧
  (∀ (i : Instr) (s t : State) (x y : QNum), exec i s = .next t →
    (∀ bd idx, i ≠ .bufStore bd idx) → (∀ bs idx, i ≠ .bufLoad bs idx) → (∀ idx, i ≠ .mapGet idx) →
    i ≠ .chTxs → i ≠ .chSet →
    exec i { s with di := x, dq := y } = .next { t with di := x, dq := y }) ∧
  (∀ (s t : State) (y : QNum), exec .chSet s = .next t →
    exec .chSet { s with dq := y } = .next { t with dq := y }) ∧
  ∀ (s : State) (x : QNum), s.run ≠ .running →
    hostReadReg 0x10 s = .ok (.num s.di) ∧ hostReadReg 0x11 s = .ok (.num s.dq) ∧
    hostMove (.writeReg 0x10 (.num x)) s = .next { s with di := x } ∧
    hostMove (.writeReg 0x11 (.num x)) s = .next { s with dq := x }

/-- The mapper's state and the bindings are written by their commands alone: MAP_VALID and ORDER by
MAP_INIT, CT and CUSTOM by MAP_INIT and MAP_INSTALL, MOD_BOUND by MAP_INIT and MOD_BIND, DEM_BOUND by
MAP_INIT and DEM_BIND (10_state.md R17, R18, R20). -/
def Obligations.MapperStateIsWrittenByItsCommands : Prop :=
  ∀ (i : Instr) (s t : State), exec i s = .next t → (∀ o, i ≠ .mapInit o) →
    t.mapValid = s.mapValid ∧ t.order = s.order ∧
    (i ≠ .mapInstall → t.ct = s.ct ∧ t.custom = s.custom) ∧
    ((∀ e, i ≠ .modBind e) → t.modBound = s.modBound) ∧
    ((∀ e, i ≠ .demBind e) → t.demBound = s.demBound)

/-- A command leaves every buffer but the one it names as its destination as it was: capacity and words
(10_state.md R21). -/
def Obligations.OnlyTheDestinationBufferIsWritten : Prop :=
  ∀ (i : Instr) (s t : State) (b : BufId), exec i s = .next t → i.bufferWritten ≠ some b →
    t.buf b = s.buf b ∧ ∀ a, t.sbWord b a = s.sbWord b a

/-- No command writes what the host owns: CM, so that a program cannot change itself, BIN, BIN_LEN, GT; nor
the parameters (20_memory.md R51, 10_state.md R19, R22, R27). -/
def Obligations.CommandsNeverWriteHostMemories : Prop :=
  ∀ (i : Instr) (s t : State), exec i s = .next t →
    t.cm = s.cm ∧ t.bin = s.bin ∧ t.binLen = s.binLen ∧ t.gt = s.gt ∧ t.params = s.params ∧
    (∀ a, t.cmWord a = s.cmWord a ∧ t.binByte a = s.binByte a ∧ t.gtPoint a = s.gtPoint a)

/-- The outputs and the channel are written by their commands alone: BOUT by DEMOD and DEMOD_LLR with h = 1,
LLR by DEMOD_LLR, CH_VALID, SIGMA and NZ by CH_SET, CURSOR by CH_SET, CH_TXS and CH_TXB (10_state.md R23 to
R26). -/
def Obligations.OutputsAndChannelAreWrittenByTheirCommands : Prop :=
  ∀ (i : Instr) (s t : State), exec i s = .next t →
    ((∀ bs, i ≠ .demod bs) → (∀ bs, i ≠ .demodLlr bs true) →
      t.boutLen = s.boutLen ∧ ∀ a, t.boutByte a = s.boutByte a) ∧
    ((∀ bs h, i ≠ .demodLlr bs h) → t.llrLen = s.llrLen ∧ ∀ a, t.llrEntry a = s.llrEntry a) ∧
    (i ≠ .chSet → t.chValid = s.chValid ∧ t.sigma = s.sigma ∧ ∀ a, t.nzValue a = s.nzValue a) ∧
    (i ≠ .chSet → i ≠ .chTxs → (∀ bd bs, i ≠ .chTxb bd bs) → t.cursor = s.cursor)

/-- A host move other than RESET writes at most CM, BIN, BIN_LEN, GT, DI and DQ, and PC and RUN at START
(70_reset_and_hazards.md R204). -/
def Obligations.HostWritesOnlyWhatItMay : Prop :=
  ∀ (h : HostAction) (s t : State), hostMove h s = .next t → h ≠ .reset →
    t = { s with
      cm := t.cm, bin := t.bin, binLen := t.binLen, gt := t.gt, di := t.di, dq := t.dq,
      pc := t.pc, run := t.run } ∧
    (s.run = .running → t = s) ∧ (t.pc ≠ s.pc → h = .start) ∧ (t.run ≠ s.run → h = .start)

/-! ### Mapper -/

/-- 40_mapper.md R85: MAP_INIT with order code 3 raises Illegal; with an order it writes the default map,
the mapper's flags and nothing else, and unbinds. -/
def Obligations.MapInitConstructsTheMapper : Prop :=
  ∀ (o : Order) (s : State),
    (o = .code3 → exec (.mapInit o) s = .next (raise .illegal s)) ∧
    (o ≠ .code3 → ∃ t, exec (.mapInit o) s = .next t ∧
      t = { s with
        ct := t.ct, order := o, mapValid := true, custom := false, modBound := false,
        demBound := false, pc := s.pc + 1 } ∧
      (∀ idx < points o, t.ctPoint idx = genDefault o idx) ∧
      ∀ idx, points o ≤ idx → t.ctPoint idx = s.ctPoint idx)

/-- The three tables written out in 40_mapper.md section 4 (R91, R92, R93, which the spec derives from its rule
R84), as MAP_INIT leaves them in CT from any state. -/
def Obligations.MapInitLeavesTheTablesOfTheSpec : Prop :=
  ∀ s : State,
    (∃ t, exec (.mapInit .qpsk) s = .next t ∧
      (List.range 4).map t.ctPoint =
        ([(-1, -1), (1, -1), (1, 1), (-1, 1)] : List (QNum × QNum)).map (fun p => ⟨p.1, p.2⟩)) ∧
    (∃ t, exec (.mapInit .qam16) s = .next t ∧
      (List.range 16).map t.ctPoint =
        (([(-1, -1), (-3, -1), (3, -1), (1, -1), (1, -3), (3, -3), (-3, -3), (-1, -3)] ++
          [(-1, 3), (-3, 3), (3, 3), (1, 3), (1, 1), (3, 1), (-3, 1), (-1, 1)] :
            List (QNum × QNum))).map (fun p => ⟨p.1, p.2⟩)) ∧
    ∃ t, exec (.mapInit .qam64) s = .next t ∧
      (List.range 64).map t.ctPoint =
        (([(-1, -1), (-3, -1), (-7, -1), (-5, -1), (5, -1), (7, -1), (3, -1), (1, -1)] ++
          [(1, -3), (3, -3), (7, -3), (5, -3), (-5, -3), (-7, -3), (-3, -3), (-1, -3)] ++
          [(-1, -7), (-3, -7), (-7, -7), (-5, -7), (5, -7), (7, -7), (3, -7), (1, -7)] ++
          [(1, -5), (3, -5), (7, -5), (5, -5), (-5, -5), (-7, -5), (-3, -5), (-1, -5)] ++
          [(-1, 5), (-3, 5), (-7, 5), (-5, 5), (5, 5), (7, 5), (3, 5), (1, 5)] ++
          [(1, 7), (3, 7), (7, 7), (5, 7), (-5, 7), (-7, 7), (-3, 7), (-1, 7)] ++
          [(-1, 3), (-3, 3), (-7, 3), (-5, 3), (5, 3), (7, 3), (3, 3), (1, 3)] ++
          [(1, 1), (3, 1), (7, 1), (5, 1), (-5, 1), (-7, 1), (-3, 1), (-1, 1)] :
            List (QNum × QNum))).map (fun p => ⟨p.1, p.2⟩)

/-- 40_mapper.md section 3 (R90, which the spec derives from its rules R81, R83, R84): the default map has
pairwise distinct points; its coordinates are odd, of magnitude below 2, 4 and 8 for the three orders, and every
pair of such values is a point; two indices whose Gray codes differ in one bit differ in one coordinate, there
by the sign alone or by the magnitude alone, by 2 or by 4; consecutive indices are such a pair. -/
def Obligations.DefaultMapIsAGrayCodedGrid : Prop :=
  ∀ o : Order, o ≠ .code3 →
    (∀ m < points o, ∀ n < points o, genDefault o m = genDefault o n → m = n) ∧
    (∀ m < points o,
      (∃ x < 2 ^ (bps o / 2 - 1), |(genDefault o m).i| = ((2 * x + 1 : Nat) : QNum)) ∧
      (∃ y < 2 ^ (bps o / 2 - 1), |(genDefault o m).q| = ((2 * y + 1 : Nat) : QNum))) ∧
    (∀ x : Nat, x < 2 ^ (bps o / 2 - 1) → ∀ y : Nat, y < 2 ^ (bps o / 2 - 1) →
      ∀ sx ∈ ([1, -1] : List Int), ∀ sy ∈ ([1, -1] : List Int),
        ∃ m < points o,
          genDefault o m = ⟨((sx * (2 * x + 1) : Int) : QNum), ((sy * (2 * y + 1) : Int) : QNum)⟩) ∧
    (∀ m : Nat, m + 1 < points o → ∃ b < bps o, gray m ^^^ gray (m + 1) = 2 ^ b) ∧
    ∀ m < points o, ∀ n < points o, (∃ b < bps o, gray m ^^^ gray n = 2 ^ b) →
      ((genDefault o m).q = (genDefault o n).q ∧
        ((genDefault o m).i = -(genDefault o n).i ∨
          (0 < (genDefault o m).i * (genDefault o n).i ∧
            (|(genDefault o m).i - (genDefault o n).i| = 2 ∨
              |(genDefault o m).i - (genDefault o n).i| = 4)))) ∨
      ((genDefault o m).i = (genDefault o n).i ∧
        ((genDefault o m).q = -(genDefault o n).q ∨
          (0 < (genDefault o m).q * (genDefault o n).q ∧
            (|(genDefault o m).q - (genDefault o n).q| = 2 ∨
              |(genDefault o m).q - (genDefault o n).q| = 4))))

/-- 40_mapper.md R86: MAP_INSTALL without a mapper raises NotConstructed; with one it copies GT over the
map, sets CUSTOM and changes nothing else; a later host write to GT does not change CT, and only MAP_INIT
goes back to the default generator. -/
def Obligations.MapInstallCopiesTheGeneratorTable : Prop :=
  ∀ s : State,
    (s.mapValid = false → exec .mapInstall s = .next (raise .notConstructed s)) ∧
    (s.mapValid = true → ∃ t, exec .mapInstall s = .next t ∧
      t = { s with ct := t.ct, custom := true, pc := s.pc + 1 } ∧
      (∀ idx < points s.order, t.ctPoint idx = s.gtPoint idx) ∧
      ∀ idx, points s.order ≤ idx → t.ctPoint idx = s.ctPoint idx) ∧
    (∀ a p t, hostMove (.writeGt a p) s = .next t → ∀ idx, t.ctPoint idx = s.ctPoint idx) ∧
    ∀ i t, exec i s = .next t → s.custom = true → t.custom = false → ∃ o, i = .mapInit o

/-- 40_mapper.md R87, R88: MAP_ORDER gives the order code and MAP_BPS the bits per symbol in RES, and
nothing else changes; without a mapper both raise NotConstructed. -/
def Obligations.MapOrderAndMapBpsReadTheOrder : Prop :=
  ∀ s : State,
    (s.mapValid = false →
      exec .mapOrder s = .next (raise .notConstructed s) ∧
      exec .mapBps s = .next (raise .notConstructed s)) ∧
    (s.mapValid = true →
      (exec .mapOrder s =
        .next { s with res := s.order.code.setWidth 32, pc := s.pc + 1 }) ∧
      (exec .mapBps s = .next { s with res := BitVec.ofNat 32 (bps s.order), pc := s.pc + 1 }) ∧
      (s.order = .qpsk → exec .mapOrder s = .next { s with res := 0, pc := s.pc + 1 } ∧
        exec .mapBps s = .next { s with res := 2, pc := s.pc + 1 }) ∧
      (s.order = .qam16 → exec .mapOrder s = .next { s with res := 1, pc := s.pc + 1 } ∧
        exec .mapBps s = .next { s with res := 4, pc := s.pc + 1 }) ∧
      (s.order = .qam64 → exec .mapOrder s = .next { s with res := 2, pc := s.pc + 1 } ∧
        exec .mapBps s = .next { s with res := 6, pc := s.pc + 1 }))

/-- 40_mapper.md R89: MAP_GET checks the mapper, then the index, and reads the entry into (DI, DQ). -/
def Obligations.MapGetReadsOneEntry : Prop :=
  ∀ (idx : BitVec 16) (s : State),
    (s.mapValid = false → exec (.mapGet idx) s = .next (raise .notConstructed s)) ∧
    (s.mapValid = true → points s.order ≤ idx.toNat →
      exec (.mapGet idx) s = .next (raise .boundsIndex s)) ∧
    (s.mapValid = true → idx.toNat < points s.order →
      exec (.mapGet idx) s = .next { s with
        di := (s.ctPoint idx.toNat).i, dq := (s.ctPoint idx.toNat).q, pc := s.pc + 1 })

/-! ### Buffers -/

/-- 41_buffer.md R101 with 20_memory.md R54: a length that is 0, odd or above CAP_MAX raises BoundsLength; any
other makes the buffer and changes no other buffer and no other state but the model's own key counter. In the
model's form of "unspecified" (log entry 3) no word below the length is listed as written any more, and the
buffer's key is a new one, so that its words have no relation to what they read as before; words at or beyond
the length keep what was written there, the model's choice of log entry 4. -/
def Obligations.BufMakeConstructsAnEvenBuffer : Prop :=
  ∀ (bd : BufId) (len : BitVec 16) (s : State),
    (len.toNat = 0 ∨ len.toNat % 2 = 1 ∨ s.params.capMax < len.toNat →
      exec (.bufMake bd len) s = .next (raise .boundsLength s)) ∧
    (len.toNat ≠ 0 → len.toNat % 2 = 0 → len.toNat ≤ s.params.capMax →
      ∃ t, exec (.bufMake bd len) s = .next t ∧
        t = { s with bufs := t.bufs, fresh := s.fresh + 1, pc := s.pc + 1 } ∧
        t.cap bd = len.toNat ∧ (t.buf bd).era = s.fresh ∧
        (∀ a < len.toNat, (t.buf bd).words.read a = none) ∧
        (∀ a, len.toNat ≤ a → (t.buf bd).words.read a = (s.buf bd).words.read a) ∧
        ∀ b, b ≠ bd → t.buf b = s.buf b)

/-- 41_buffer.md R102: BUF_STORE checks the buffer, then the index; it writes DI to word n and DQ to word
CAP/2 + n, and no other word and no other state changes. -/
def Obligations.BufStoreWritesOneSample : Prop :=
  ∀ (bd : BufId) (idx : BitVec 16) (s : State),
    (s.cap bd = 0 → exec (.bufStore bd idx) s = .next (raise .notConstructed s)) ∧
    (s.cap bd ≠ 0 → s.cap bd / 2 ≤ idx.toNat →
      exec (.bufStore bd idx) s = .next (raise .boundsIndex s)) ∧
    (idx.toNat < s.cap bd / 2 → ∃ t, exec (.bufStore bd idx) s = .next t ∧
      t = { s with bufs := t.bufs, pc := s.pc + 1 } ∧
      t.cap bd = s.cap bd ∧
      t.sbWord bd idx.toNat = s.di ∧ t.sbWord bd (s.cap bd / 2 + idx.toNat) = s.dq ∧
      (∀ a, a ≠ idx.toNat → a ≠ s.cap bd / 2 + idx.toNat → t.sbWord bd a = s.sbWord bd a) ∧
      ∀ b, b ≠ bd → t.buf b = s.buf b)

/-- 41_buffer.md R103: BUF_LOAD checks the buffer, then the index; it reads word n into DI and word
CAP/2 + n into DQ and changes nothing else. -/
def Obligations.BufLoadReadsOneSample : Prop :=
  ∀ (bs : BufId) (idx : BitVec 16) (s : State),
    (s.cap bs = 0 → exec (.bufLoad bs idx) s = .next (raise .notConstructed s)) ∧
    (s.cap bs ≠ 0 → s.cap bs / 2 ≤ idx.toNat →
      exec (.bufLoad bs idx) s = .next (raise .boundsIndex s)) ∧
    (idx.toNat < s.cap bs / 2 →
      exec (.bufLoad bs idx) s = .next { s with
        di := s.sbWord bs idx.toNat, dq := s.sbWord bs (s.cap bs / 2 + idx.toNat),
        pc := s.pc + 1 })

/-- 41_buffer.md R104: BUF_COPY of an unconstructed source raises NotConstructed; onto itself it changes
nothing; onto another buffer it copies every word of the source and its capacity, and changes no other
word, no other buffer and no other state. -/
def Obligations.BufCopyDuplicatesTheSource : Prop :=
  ∀ (bd bs : BufId) (s : State),
    (s.cap bs = 0 → exec (.bufCopy bd bs) s = .next (raise .notConstructed s)) ∧
    (s.cap bs ≠ 0 → bd = bs → exec (.bufCopy bd bs) s = .next { s with pc := s.pc + 1 }) ∧
    (s.cap bs ≠ 0 → bd ≠ bs → ∃ t, exec (.bufCopy bd bs) s = .next t ∧
      t = { s with bufs := t.bufs, pc := s.pc + 1 } ∧
      t.cap bd = s.cap bs ∧
      (∀ a < s.cap bs, t.sbWord bd a = s.sbWord bs a) ∧
      (∀ a, s.cap bs ≤ a → t.sbWord bd a = s.sbWord bd a) ∧
      ∀ b, b ≠ bd → t.buf b = s.buf b)

/-- 41_buffer.md section 3 (R105, which the spec derives from its rules R100, R102, R103): a stored sample reads
back exactly after any commands that do not write its buffer, and a store disturbs no other sample of its
buffer. -/
def Obligations.StoredSampleReadsBackExactly : Prop :=
  ∀ (b : BufId) (idx : BitVec 16) (s : State), idx.toNat < s.cap b / 2 →
    ∃ t, exec (.bufStore b idx) s = .next t ∧
      (∀ (cmds : List Instr) (u : State), (∀ i ∈ cmds, i.bufferWritten ≠ some b) →
        execAll cmds t = .next u →
        ∃ v, exec (.bufLoad b idx) u = .next v ∧ v.di = s.di ∧ v.dq = s.dq) ∧
      ∀ n < s.cap b / 2, n ≠ idx.toNat → t.sample b n = s.sample b n

/-! ### Modulator -/

/-- 42_modulator.md R110, 43_demodulator.md R120: a bind without a mapper raises NotConstructed; one that
requires another order than ORDER raises CfgWrongOrder; any other sets its flag and nothing else. -/
def Obligations.BindsCheckTheMapperThenTheOrder : Prop :=
  ∀ (e : Order) (s : State),
    (s.mapValid = false →
      exec (.modBind e) s = .next (raise .notConstructed s) ∧
      exec (.demBind e) s = .next (raise .notConstructed s)) ∧
    (s.mapValid = true → e ≠ .code3 → e ≠ s.order →
      exec (.modBind e) s = .next (raise .cfgWrongOrder s) ∧
      exec (.demBind e) s = .next (raise .cfgWrongOrder s)) ∧
    (s.mapValid = true → e = .code3 ∨ e = s.order →
      exec (.modBind e) s = .next { s with modBound := true, pc := s.pc + 1 } ∧
      exec (.demBind e) s = .next { s with demBound := true, pc := s.pc + 1 })

/-- 42_modulator.md R111: the value of a group is the sum of its stream bits, first bit most significant,
positions beyond the stream 0; and it is an index of the map. -/
def Obligations.GroupIsItsStreamBitsMsbFirst : Prop :=
  ∀ (s : State) (n : Nat),
    let k := bps s.order
    let bit := fun p : Nat =>
      if p < 8 * s.binLen then ((s.binByte (p / 8)).toNat >>> (7 - p % 8)) &&& 1 else 0
    s.group n = ((List.range k).map (fun j => bit (n * k + j) <<< (k - 1 - j))).sum ∧
    s.group n < points s.order

/-- The word-level form of a group that 42_modulator.md section 2 derives from its rule R111 (the spec marks
it as its own inference): the two-byte window at the group's first byte, shifted and masked. -/
def Obligations.TwoByteWindowGivesTheGroup : Prop :=
  ∀ (s : State) (n : Nat), s.order ≠ .code3 →
    let k := bps s.order
    let byte := fun x : Nat => if x < s.binLen then (s.binByte x).toNat else 0
    let window := byte (n * k / 8) * 256 + byte (n * k / 8 + 1)
    s.group n = (window >>> (16 - n * k % 8 - k)) &&& (2 ^ k - 1)

/-- The symbol count of 42_modulator.md R112, and the pad bits of the last group, which the spec derives from
it. -/
def Obligations.SymbolCountCoversEveryBit : Prop :=
  ∀ s : State, s.order ≠ .code3 →
    s.symbolCount = (8 * s.binLen + bps s.order - 1) / bps s.order ∧
    8 * s.binLen ≤ s.symbolCount * bps s.order ∧
    ((s.order = .qpsk ∨ s.order = .qam16) → s.symbolCount * bps s.order = 8 * s.binLen) ∧
    (s.order = .qam64 →
      s.symbolCount * 6 - 8 * s.binLen =
        if s.binLen % 3 = 0 then 0 else if s.binLen % 3 = 2 then 2 else 4)

/-- 42_modulator.md R113: MODULATE checks the binding, then the length; it makes a buffer of exactly
2*nsym words whose sample n is the map's entry of group n, and no other word, buffer or state changes. -/
def Obligations.ModulateMapsEveryGroup : Prop :=
  ∀ (bd : BufId) (s : State),
    let nsym := (8 * s.binLen + bps s.order - 1) / bps s.order
    (s.modBound = false → exec (.modulate bd) s = .next (raise .cfgNoMapper s)) ∧
    (s.modBound = true → nsym = 0 ∨ s.params.capMax < 2 * nsym →
      exec (.modulate bd) s = .next (raise .boundsLength s)) ∧
    (s.modBound = true → nsym ≠ 0 → 2 * nsym ≤ s.params.capMax →
      ∃ t, exec (.modulate bd) s = .next t ∧
        t = { s with bufs := t.bufs, pc := s.pc + 1 } ∧
        t.cap bd = 2 * nsym ∧
        (∀ n < nsym, t.sbWord bd n = (s.ctPoint (s.group n)).i ∧
          t.sbWord bd (nsym + n) = (s.ctPoint (s.group n)).q ∧
          t.sample bd n = s.ctPoint (s.group n)) ∧
        (∀ a, 2 * nsym ≤ a → t.sbWord bd a = s.sbWord bd a) ∧
        ∀ b, b ≠ bd → t.buf b = s.buf b)

/-! ### Demodulator -/

/-- 43_demodulator.md R121, R122: the decision is the least index among those of least squared distance. -/
def Obligations.NearestIsTheFirstOfLeastDistance : Prop :=
  (∀ x p : Point, dist2 x p = (x.i - p.i) ^ 2 + (x.q - p.q) ^ 2) ∧
  ∀ (s : State) (x : Point),
    s.nearest x < points s.order ∧
    (∀ j < points s.order,
      dist2 x (s.ctPoint (s.nearest x)) ≤ dist2 x (s.ctPoint j)) ∧
    ∀ j < s.nearest x, dist2 x (s.ctPoint (s.nearest x)) < dist2 x (s.ctPoint j)

/-- 43_demodulator.md R123: bit j of value n goes to stream position n*k + j, first bit most significant;
the positions left in the last byte are 0; the other bytes of BOUT and all other state stay. -/
def Obligations.PackWritesTheBitsMsbFirst : Prop :=
  ∀ (k : Nat) (v : List Nat) (s : State),
    (pack k v s).boutLen = (v.length * k + 7) / 8 ∧
    (∀ (n : Nat) (hn : n < v.length) (j : Nat), j < k →
      streamBit (pack k v s).boutByte (pack k v s).boutLen (n * k + j) =
        v[n].testBit (k - 1 - j)) ∧
    (∀ p, v.length * k ≤ p →
      streamBit (pack k v s).boutByte (pack k v s).boutLen p = false) ∧
    (∀ a, (pack k v s).boutLen ≤ a → (pack k v s).boutByte a = s.boutByte a) ∧
    pack k v s = { s with bout := (pack k v s).bout, boutLen := (pack k v s).boutLen }

/-- 43_demodulator.md R124: DEMOD checks the binding, then the buffer; the output stream holds the
decision of every sample, in order, and nothing else changes. -/
def Obligations.DemodPacksTheNearestIndices : Prop :=
  ∀ (bs : BufId) (s : State),
    (s.demBound = false → exec (.demod bs) s = .next (raise .cfgNoMapper s)) ∧
    (s.demBound = true → s.cap bs = 0 →
      exec (.demod bs) s = .next (raise .notConstructed s)) ∧
    (s.demBound = true → s.cap bs ≠ 0 → ∃ t, exec (.demod bs) s = .next t ∧
      t = { s with bout := t.bout, boutLen := t.boutLen, pc := s.pc + 1 } ∧
      t.boutLen = (s.cap bs / 2 * bps s.order + 7) / 8 ∧
      (∀ n < s.cap bs / 2, ∀ j < bps s.order,
        streamBit t.boutByte t.boutLen (n * bps s.order + j) =
          (s.nearest ⟨s.sbWord bs n, s.sbWord bs (s.cap bs / 2 + n)⟩).testBit
            (bps s.order - 1 - j)) ∧
      (∀ p, s.cap bs / 2 * bps s.order ≤ p → streamBit t.boutByte t.boutLen p = false) ∧
      ∀ a, t.boutLen ≤ a → t.boutByte a = s.boutByte a)

/-- 43_demodulator.md R125: the LLR of a bit is (d1 - d0) / (2 * max(SIGMA^2, SIGMA2_FLOOR)), where d0 and
d1 are the least squared distances to the points whose index has the bit 0 and 1. -/
def Obligations.LlrIsTheScaledDistanceDifference : Prop :=
  ∀ (s : State) (x : Point) (pos : Nat), pos < bps s.order →
    ∃ d0 d1 : QNum,
      (∃ idx < points s.order, idx.testBit pos = false ∧ d0 = dist2 x (s.ctPoint idx)) ∧
      (∀ idx < points s.order, idx.testBit pos = false → d0 ≤ dist2 x (s.ctPoint idx)) ∧
      (∃ idx < points s.order, idx.testBit pos = true ∧ d1 = dist2 x (s.ctPoint idx)) ∧
      (∀ idx < points s.order, idx.testBit pos = true → d1 ≤ dist2 x (s.ctPoint idx)) ∧
      s.llrOf x pos = (d1 - d0) / (2 * max (s.sigma * s.sigma) s.params.sigma2Floor)

/-- 43_demodulator.md R126, R127, R128: DEMOD_LLR checks the binding, the buffer, the channel; entry
n*k + j of LLR is the LLR of sample n at index bit k-1-j; with h = 1 the output stream has a 1 exactly
where that entry is negative; nothing else changes. -/
def Obligations.DemodLlrWritesSoftBitsInStreamOrder : Prop :=
  ∀ (bs : BufId) (h : Bool) (s : State),
    (s.demBound = false → exec (.demodLlr bs h) s = .next (raise .cfgNoMapper s)) ∧
    (s.demBound = true → s.cap bs = 0 ∨ s.chValid = false →
      exec (.demodLlr bs h) s = .next (raise .notConstructed s)) ∧
    (s.demBound = true → s.cap bs ≠ 0 → s.chValid = true →
      ∃ t, exec (.demodLlr bs h) s = .next t ∧
        t = { s with
          llr := t.llr, llrLen := t.llrLen, bout := t.bout, boutLen := t.boutLen,
          pc := s.pc + 1 } ∧
        t.llrLen = s.cap bs / 2 * bps s.order ∧
        (∀ n < s.cap bs / 2, ∀ j < bps s.order,
          t.llrEntry (n * bps s.order + j) = s.llrOf (s.sample bs n) (bps s.order - 1 - j)) ∧
        (∀ a, t.llrLen ≤ a → t.llrEntry a = s.llrEntry a) ∧
        (h = false → t.bout = s.bout ∧ t.boutLen = s.boutLen) ∧
        (h = true → t.boutLen = (s.cap bs / 2 * bps s.order + 7) / 8 ∧
          (∀ p < t.llrLen, streamBit t.boutByte t.boutLen p = decide (t.llrEntry p < 0)) ∧
          (∀ p, t.llrLen ≤ p → streamBit t.boutByte t.boutLen p = false) ∧
          ∀ a, t.boutLen ≤ a → t.boutByte a = s.boutByte a))

/-- 43_demodulator.md R129: LLR_BIT checks the binding, the buffer, the channel, the sample index, the bit
position, and puts one LLR in QR; nothing else changes. -/
def Obligations.LlrBitPutsOneLlrInQr : Prop :=
  ∀ (bs : BufId) (idx : BitVec 16) (pos : BitVec 4) (s : State),
    (s.demBound = false → exec (.llrBit bs idx pos) s = .next (raise .cfgNoMapper s)) ∧
    (s.demBound = true → s.cap bs = 0 ∨ s.chValid = false →
      exec (.llrBit bs idx pos) s = .next (raise .notConstructed s)) ∧
    (s.demBound = true → s.cap bs ≠ 0 → s.chValid = true →
      s.cap bs / 2 ≤ idx.toNat ∨ bps s.order ≤ pos.toNat →
      exec (.llrBit bs idx pos) s = .next (raise .boundsIndex s)) ∧
    (s.demBound = true → s.chValid = true → idx.toNat < s.cap bs / 2 → pos.toNat < bps s.order →
      exec (.llrBit bs idx pos) s = .next { s with
        qr := .fin (s.llrOf (s.sample bs idx.toNat) pos.toNat), pc := s.pc + 1 })

/-- 43_demodulator.md section 6 (R131, which the spec derives from its rules R122, R125, R127): where the
nearest point is unique, every sliced LLR bit is the bit of the hard decision; and with the default QPSK map the
tie at (1, 0) gives index 1 hard and 00 soft. -/
def Obligations.HardAndSoftDecisionsAgreeWithoutTies : Prop :=
  (∀ (s : State) (x : Point) (v : Nat), 0 < s.params.sigma2Floor → v < points s.order →
    (∀ j < points s.order, j ≠ v → dist2 x (s.ctPoint v) < dist2 x (s.ctPoint j)) →
    s.nearest x = v ∧ ∀ pos < bps s.order, slice (s.llrOf x pos) = v.testBit pos) ∧
  ∀ s : State, s.order = .qpsk → (∀ idx < 4, s.ctPoint idx = genDefault .qpsk idx) →
    s.nearest ⟨1, 0⟩ = 1 ∧ s.llrOf ⟨1, 0⟩ 0 = 0 ∧ s.llrOf ⟨1, 0⟩ 1 = 0 ∧
    slice (s.llrOf ⟨1, 0⟩ 0) = false ∧ slice (s.llrOf ⟨1, 0⟩ 1) = false

/-- 43_demodulator.md section 6 (R130, which the spec derives from its rules R111, R122, R123): with the default
map and bound units, MODULATE and then DEMOD of its buffer, or of a copy transmitted at sigma = 0, gives the
input back; when the bit count is not a multiple of the bits per symbol, one zero byte follows it. -/
def Obligations.NoiselessRoundTripIsExact : Prop :=
  ∀ (x y : BufId) (s : State),
    s.Inv → s.custom = false → s.modBound = true → s.demBound = true → 1 ≤ s.binLen →
    2 * s.symbolCount ≤ s.params.capMax →
    ∃ t u, exec (.modulate x) s = .next t ∧ exec (.demod x) t = .next u ∧
      (∀ a < s.binLen, u.boutByte a = s.binByte a) ∧
      (8 * s.binLen % bps s.order = 0 → u.boutLen = s.binLen) ∧
      (8 * s.binLen % bps s.order ≠ 0 →
        u.boutLen = s.binLen + 1 ∧ u.boutByte s.binLen = 0) ∧
      (x ≠ y → s.chValid = true → s.sigma = 0 →
        ∃ t' u', exec (.chTxb y x) t = .next t' ∧ exec (.demod y) t' = .next u' ∧
          u'.boutLen = u.boutLen ∧ ∀ a < u.boutLen, u'.boutByte a = u.boutByte a)

/-! ### Channel -/

/-- 44_channel.md R144 with R142: CH_SET with DI < 0 raises Illegal; otherwise SIGMA is DI, the cache is a
next answer of the oracle, the cursor 0, the channel valid; nothing else changes but the generation counter
and the model's own list of the oracle's fixed answers (log entry 5). At sigma 0 the cache is all zero
(R141). -/
def Obligations.ChSetRegeneratesTheNoiseCache : Prop :=
  ∀ s : State,
    (s.di < 0 → exec .chSet s = .next (raise .illegal s)) ∧
    (0 ≤ s.di → ∃ t, exec .chSet s = .next t ∧
      t = { s with
        sigma := s.di, nz := t.nz, cursor := 0, chValid := true, regens := s.regens + 1,
        oracle := s.oracle.tail, pc := s.pc + 1 } ∧
      (∀ a < s.params.noiseLen, t.nzValue a = s.noiseGen s.di a) ∧
      (∀ a, s.params.noiseLen ≤ a → t.nzValue a = s.nzValue a) ∧
      (s.di = 0 → ∀ a < s.params.noiseLen, t.nzValue a = 0))

/-- 44_channel.md R143: a draw hands out the cached value at the cursor and moves the cursor, which wraps
at L; so draw number t of a sequence hands out NZ[(CURSOR + t) mod L], which is NZ[t mod L] right after a
regeneration, and draws change nothing but the cursor. -/
def Obligations.DrawsReuseTheCacheCyclically : Prop :=
  (∀ s : State,
    draw s = (s.nzValue s.cursor, { s with cursor := (s.cursor + 1) % s.params.noiseLen })) ∧
  (∀ (n : Nat) (s : State), s.cursor < s.params.noiseLen →
    (draws n s).2 = { s with cursor := (s.cursor + n) % s.params.noiseLen } ∧
    (draws n s).2.cursor < s.params.noiseLen ∧
    ∀ t < n, (draws n s).1[t]? = some (s.nzValue ((s.cursor + t) % s.params.noiseLen))) ∧
  ∀ (n : Nat) (s : State) (sigma : QNum), 1 ≤ s.params.noiseLen →
    ∀ t < n, (draws n (regenerate sigma s)).1[t]? =
      some ((regenerate sigma s).nzValue (t % s.params.noiseLen))

/-- The noise of successive draws has period L (44_channel.md section 3, which the spec derives from its
rule R143). -/
def Obligations.NoiseRepeatsWithPeriodL : Prop :=
  ∀ (n : Nat) (s : State) (t : Nat), s.cursor < s.params.noiseLen → t + s.params.noiseLen < n →
    (draws n s).1[t + s.params.noiseLen]? = (draws n s).1[t]?

/-- 44_channel.md R145: CH_TXS without a channel raises NotConstructed; with one it adds the next cached
value to DI and the one after it to DQ, moves the cursor by two, and changes nothing else. -/
def Obligations.ChTxsAddsTwoDraws : Prop :=
  ∀ s : State,
    (s.chValid = false → exec .chTxs s = .next (raise .notConstructed s)) ∧
    (s.chValid = true →
      exec .chTxs s = .next { s with
        di := s.di + s.nzValue s.cursor
        dq := s.dq + s.nzValue ((s.cursor + 1) % s.params.noiseLen)
        cursor := (s.cursor + 2) % s.params.noiseLen
        pc := s.pc + 1 })

/-- 44_channel.md R146: CH_TXB of a buffer onto itself raises Illegal; without a channel or a source it
raises NotConstructed; otherwise sample n of the destination is sample n of the source plus draws 2n and
2n + 1, the source and every other buffer stay, and the cursor moves by the capacity. -/
def Obligations.ChTxbAddsTwoDrawsToEverySample : Prop :=
  ∀ (bd bs : BufId) (s : State),
    (bd = bs → exec (.chTxb bd bs) s = .next (raise .illegal s)) ∧
    (bd ≠ bs → s.chValid = false ∨ s.cap bs = 0 →
      exec (.chTxb bd bs) s = .next (raise .notConstructed s)) ∧
    (bd ≠ bs → s.chValid = true → s.cap bs ≠ 0 → s.cap bs % 2 = 0 →
      s.cursor < s.params.noiseLen →
      ∃ t, exec (.chTxb bd bs) s = .next t ∧
        t = { s with
          bufs := t.bufs, cursor := (s.cursor + s.cap bs) % s.params.noiseLen,
          pc := s.pc + 1 } ∧
        t.cap bd = s.cap bs ∧
        (∀ n < s.cap bs / 2,
          t.sbWord bd n =
            s.sbWord bs n + s.nzValue ((s.cursor + 2 * n) % s.params.noiseLen) ∧
          t.sbWord bd (s.cap bs / 2 + n) =
            s.sbWord bs (s.cap bs / 2 + n) +
              s.nzValue ((s.cursor + (2 * n + 1)) % s.params.noiseLen)) ∧
        (∀ a, s.cap bs ≤ a → t.sbWord bd a = s.sbWord bd a) ∧
        ∀ b, b ≠ bd → t.buf b = s.buf b)

/-- 44_channel.md R147, R148: CH_Q gives sigma in QR; CH_LOGQ gives +inf at sigma = 0, 0 at sigma = 1, and
10 * Log10(1/sigma^2) otherwise; without a channel both raise NotConstructed; nothing else changes. -/
def Obligations.ChannelQualityIsReadInQr : Prop :=
  ∀ s : State,
    (s.chValid = false →
      exec .chQ s = .next (raise .notConstructed s) ∧
      exec .chLogq s = .next (raise .notConstructed s)) ∧
    (s.chValid = true →
      exec .chQ s = .next { s with qr := .fin s.sigma, pc := s.pc + 1 } ∧
      (s.sigma = 0 → exec .chLogq s = .next { s with qr := .posInf, pc := s.pc + 1 }) ∧
      (s.sigma = 1 → exec .chLogq s = .next { s with qr := .fin 0, pc := s.pc + 1 }) ∧
      (s.sigma ≠ 0 → exec .chLogq s = .next { s with
        qr := .fin (10 * log10 (1 / (s.sigma * s.sigma))), pc := s.pc + 1 }))

/-! ### Control and host -/

/-- 45_control.md R161: HALT sets RUN to DONE and changes nothing else, PC included. -/
def Obligations.HaltEndsTheRunInPlace : Prop :=
  ∀ s : State, exec .halt s = .next { s with run := .done }

/-- 45_control.md R166: START from IDLE or DONE sets PC to 0 and RUN to RUNNING and keeps all other state;
from RUNNING or FAULTED it is ignored. -/
def Obligations.StartBeginsARunAtZero : Prop :=
  ∀ s : State,
    (s.run = .idle ∨ s.run = .done →
      hostMove .start s = .next { s with pc := 0, run := .running }) ∧
    (s.run = .running ∨ s.run = .faulted → hostMove .start s = .next s)

/-- 70_reset_and_hazards.md R190, 10_state.md R31: power-on, and RESET in every RUN state, put every register
at its reset value and leave no element of any memory written. -/
def Obligations.ResetRestoresEveryRegister : Prop :=
  (∀ s : State, ∃ t, hostMove .reset s = .next t ∧ t.params = s.params) ∧
  ∀ t : State, ((∃ s, hostMove .reset s = .next t) ∨ ∃ p, t = State.resetWith p) →
    t.pc = 0 ∧ t.run = .idle ∧ t.err = none ∧ t.epc = 0 ∧
    t.mapValid = false ∧ t.custom = false ∧ t.order = .code3 ∧
    t.modBound = false ∧ t.demBound = false ∧ (∀ b, t.cap b = 0) ∧
    t.binLen = 0 ∧ t.boutLen = 0 ∧ t.llrLen = 0 ∧
    t.chValid = false ∧ t.sigma = 0 ∧ t.cursor = 0 ∧
    t.di = 0 ∧ t.dq = 0 ∧ t.res = 0 ∧ t.qr = .fin 0 ∧
    ∀ a, t.ct.read a = none ∧ t.gt.read a = none ∧ (∀ b, (t.buf b).words.read a = none) ∧
      t.bin.read a = none ∧ t.bout.read a = none ∧ t.llr.read a = none ∧ t.nz.read a = none ∧
      t.cm.read a = none

/-- 10_state.md R28: the bits of STATUS. -/
def Obligations.StatusCollectsTheFlags : Prop :=
  ∀ s : State,
    (statusWord s).getLsbD 0 = s.mapValid ∧ (statusWord s).getLsbD 1 = s.custom ∧
    (statusWord s).getLsbD 2 = s.modBound ∧ (statusWord s).getLsbD 3 = s.demBound ∧
    (statusWord s).getLsbD 4 = s.chValid ∧
    (statusWord s).extractLsb' 5 2 = s.order.code ∧
    (statusWord s).getLsbD 7 = false ∧
    (statusWord s).extractLsb' 8 2 = s.run.code ∧
    (statusWord s).extractLsb' 10 22 = 0 ∧
    (s.run ≠ .running → hostReadReg 0x00 s = .ok (.u32 (statusWord s)))

/-- 10_state.md R29: the register numbers; numbers not listed read 0 and ignore writes; read-only
registers ignore writes; BIN_LEN above BYTES_MAX is refused. -/
def Obligations.HostRegisterMap : Prop :=
  ∀ s : State, s.run ≠ .running →
    hostReadReg 0x00 s = .ok (.u32 (statusWord s)) ∧
    hostReadReg 0x01 s = .ok (.u32 ((errCode s.err).setWidth 32)) ∧
    hostReadReg 0x02 s = .ok (.u32 (BitVec.ofNat 32 s.epc)) ∧
    hostReadReg 0x03 s = .ok (.u32 (BitVec.ofNat 32 s.pc)) ∧
    hostReadReg 0x04 s = .ok (.u32 s.res) ∧
    hostReadReg 0x05 s = .ok (.u32 (BitVec.ofNat 32 s.binLen)) ∧
    hostReadReg 0x06 s = .ok (.u32 (BitVec.ofNat 32 s.boutLen)) ∧
    hostReadReg 0x07 s = .ok (.u32 (BitVec.ofNat 32 s.llrLen)) ∧
    hostReadReg 0x08 s = .ok (.u32 (BitVec.ofNat 32 s.cursor)) ∧
    (∀ b : BufId, hostReadReg (0x09 + b.val) s = .ok (.u32 (BitVec.ofNat 32 (s.cap b)))) ∧
    hostReadReg 0x10 s = .ok (.num s.di) ∧ hostReadReg 0x11 s = .ok (.num s.dq) ∧
    hostReadReg 0x12 s = .ok (.numX s.qr) ∧ hostReadReg 0x13 s = .ok (.num s.sigma) ∧
    (∀ n, 0x0D ≤ n → n < 0x10 ∨ 0x14 ≤ n → n ≠ 0x1F → hostReadReg n s = .ok (.u32 0)) ∧
    (∀ n v, n ≠ 0x05 → n ≠ 0x10 → n ≠ 0x11 → n ≠ 0x1F →
      hostMove (.writeReg n v) s = .next s) ∧
    (∀ w : Word, w.toNat ≤ s.params.bytesMax →
      hostMove (.writeReg 0x05 (.u32 w)) s = .next { s with binLen := w.toNat }) ∧
    (∀ w : Word, s.params.bytesMax < w.toNat →
      hostMove (.writeReg 0x05 (.u32 w)) s = .next s) ∧
    (∀ x : QNum, hostMove (.writeReg 0x10 (.num x)) s = .next { s with di := x } ∧
      hostMove (.writeReg 0x11 (.num x)) s = .next { s with dq := x })

/-- 10_state.md R30: any value but 1 and 2 written to CTRL is ignored, in every RUN state, and CTRL cannot
be read. That a read of CTRL is a fault of the host port is the model's choice (log entry 8). -/
def Obligations.CtrlIgnoresOtherValues : Prop :=
  ∀ (s : State) (w : Word),
    (w ≠ 1 → w ≠ 2 → hostMove (.writeReg 0x1F (.u32 w)) s = .next s) ∧
    (s.run ≠ .running → hostReadReg 0x1F s = .error .writeOnlyRegister)

/-- The host has no move during a run but a write to CTRL (20_memory.md R52), and no write it makes
during a run but RESET changes anything. That an access outside the model answers a fault is the model's choice
(log entry 7). -/
def Obligations.HostHasNoMoveDuringARun : Prop :=
  ∀ s : State, s.run = .running →
    (∀ h, (∀ w, h ≠ .writeReg 0x1F (.u32 w)) → hostMove h s = .fault .hostAccessDuringRun) ∧
    (∀ w : Word, w ≠ 2 → hostMove (.writeReg 0x1F (.u32 w)) s = .next s) ∧
    (∃ t, hostMove .reset s = .next t ∧ t.run = .idle) ∧
    (∀ n, hostReadReg n s = .error .hostAccessDuringRun) ∧
    ∀ sp a, hostReadMem sp a s = .error .hostAccessDuringRun

/-- Between runs the host reads every element of every memory as the model holds it (20_memory.md R40,
70_reset_and_hazards.md R204; that it reads CM and BIN too is the model's choice, log entry 12), and of a
buffer the real parts first, then the imaginary parts (41_buffer.md R106). What it writes to CM, BIN and GT it
reads back, and it disturbs no other element; a write to any other space is ignored. An index outside the
space, read or written, is a fault of the host port by the model's choice (log entry 8). -/
def Obligations.HostMemoryWritesReadBack : Prop :=
  ∀ s : State, s.run ≠ .running →
    ((∀ a < s.params.cmSize, hostReadMem .cm a s = .ok (.word (s.cmWord a))) ∧
      (∀ a < s.params.bytesMax, hostReadMem .bin a s = .ok (.byte (s.binByte a)) ∧
        hostReadMem .bout a s = .ok (.byte (s.boutByte a))) ∧
      (∀ a < 3 * s.params.capMax, hostReadMem .llr a s = .ok (.num (s.llrEntry a))) ∧
      (∀ b, ∀ a < s.params.capMax, hostReadMem (.sb b) a s = .ok (.num (s.sbWord b a))) ∧
      (∀ a < 64, hostReadMem .ct a s = .ok (.point (s.ctPoint a)) ∧
        hostReadMem .gt a s = .ok (.point (s.gtPoint a))) ∧
      ∀ a < s.params.noiseLen, hostReadMem .nz a s = .ok (.num (s.nzValue a))) ∧
    (∀ b, s.cap b ≤ s.params.capMax → ∀ n < s.cap b / 2,
      hostReadMem (.sb b) n s = .ok (.num (s.sample b n).i) ∧
      hostReadMem (.sb b) (s.cap b / 2 + n) s = .ok (.num (s.sample b n).q)) ∧
    (∀ a w, a < s.params.cmSize → ∃ t, hostMove (.writeCm a w) s = .next t ∧
      t = { s with cm := t.cm } ∧ hostReadMem .cm a t = .ok (.word w) ∧
      ∀ b, b ≠ a → t.cmWord b = s.cmWord b) ∧
    (∀ a x, a < s.params.bytesMax → ∃ t, hostMove (.writeBin a x) s = .next t ∧
      t = { s with bin := t.bin } ∧ hostReadMem .bin a t = .ok (.byte x) ∧
      ∀ b, b ≠ a → t.binByte b = s.binByte b) ∧
    (∀ a p, a < 64 → ∃ t, hostMove (.writeGt a p) s = .next t ∧
      t = { s with gt := t.gt } ∧ hostReadMem .gt a t = .ok (.point p) ∧
      ∀ b, b ≠ a → t.gtPoint b = s.gtPoint b) ∧
    (∀ (sp : ReadOnlySpace) a v, hostMove (.writeOther sp a v) s = .next s) ∧
    (∀ sp a, spaceSize s.params sp ≤ a → hostReadMem sp a s = .error .noSuchElement) ∧
    (∀ a w, s.params.cmSize ≤ a → hostMove (.writeCm a w) s = .fault .noSuchElement) ∧
    (∀ a x, s.params.bytesMax ≤ a → hostMove (.writeBin a x) s = .fault .noSuchElement) ∧
    ∀ a p, 64 ≤ a → hostMove (.writeGt a p) s = .fault .noSuchElement
end

