-- ==== Sys2Proof/Laws/Search.lean ====
section
/-! SUPPORT. The nearest-point search returns the first minimum (43_demodulator.md R122), and the least
distance to a subset is attained in it and a lower bound of it (R125). -/

namespace Sys2Proof.Machine

variable {K : Type} [LinearOrder K]

/-- The search keeps the first minimum of what it has seen: indices `0..n`. -/
theorem keepNearer_fold (d : Nat → K) (n : Nat) :
    let r := (List.range' 1 n).foldl (keepNearer d) (0, d 0)
    r.1 ≤ n ∧ r.2 = d r.1 ∧ (∀ j ≤ n, d r.1 ≤ d j) ∧ ∀ j < r.1, d r.1 < d j := by
  induction n with
  | zero => simp
  | succ n ih =>
    obtain ⟨h1, h2, h3, h4⟩ := ih
    rw [List.range'_concat, List.foldl_append]
    simp only [List.foldl_cons, List.foldl_nil]
    generalize (List.range' 1 n).foldl (keepNearer d) (0, d 0) = r at *
    unfold keepNearer
    rw [Nat.one_mul, h2]
    split
    · rename_i hlt
      rw [Nat.add_comm 1 n] at *
      refine ⟨le_rfl, rfl, fun j hj => ?_, fun j hj => ?_⟩
      · rcases Nat.lt_or_ge j (n + 1) with hj' | hj'
        · exact le_of_lt (lt_of_lt_of_le hlt (h3 j (by omega)))
        · simp [show j = n + 1 by omega]
      · exact lt_of_lt_of_le hlt (h3 j (by omega))
    · rename_i hge
      rw [Nat.add_comm 1 n] at hge
      refine ⟨by omega, h2, fun j hj => ?_, h4⟩
      rcases Nat.lt_or_ge j (n + 1) with hj' | hj'
      · exact h3 j (by omega)
      · rw [show j = n + 1 by omega]; exact not_lt.1 hge

theorem nearestOf_lt (d : Nat → K) {m : Nat} (hm : 0 < m) : nearestOf d m < m := by
  have := (keepNearer_fold d (m - 1)).1
  unfold nearestOf; omega

theorem nearestOf_le (d : Nat → K) {m j : Nat} (hj : j < m) : d (nearestOf d m) ≤ d j :=
  (keepNearer_fold d (m - 1)).2.2.1 j (by omega)

theorem nearestOf_first (d : Nat → K) {m j : Nat} (hj : j < nearestOf d m) :
    d (nearestOf d m) < d j :=
  (keepNearer_fold d (m - 1)).2.2.2 j hj

/-- A unique minimum is what the search returns. -/
theorem nearestOf_eq_of_unique (d : Nat → K) {m v : Nat} (hv : v < m)
    (h : ∀ j < m, j ≠ v → d v < d j) : nearestOf d m = v := by
  by_contra hne
  exact absurd (h _ (nearestOf_lt d (by omega)) hne) (not_lt.2 (nearestOf_le d hv))

theorem minOver_fold (d : Nat → K) (xs : List Nat) (b : K) :
    let r := xs.foldl (fun best idx => if d idx < best then d idx else best) b
    (r = b ∨ ∃ x ∈ xs, r = d x) ∧ r ≤ b ∧ ∀ x ∈ xs, r ≤ d x := by
  induction xs generalizing b with
  | nil => simp
  | cons x xs ih =>
    obtain ⟨h1, h2, h3⟩ := ih (if d x < b then d x else b)
    simp only [List.foldl_cons, List.mem_cons, exists_eq_or_imp, forall_eq_or_imp]
    by_cases hx : d x < b
    · rw [if_pos hx] at *
      exact ⟨.inr h1, h2.trans hx.le, h2, h3⟩
    · rw [if_neg hx] at *
      exact ⟨h1.imp id .inr, h2, h2.trans (not_lt.1 hx), h3⟩

/-- The least value over a non-empty list is attained in it. -/
theorem minOver_attained [Zero K] (d : Nat → K) {l : List Nat} (hl : l ≠ []) : ∃ x ∈ l, minOver d l = d x := by
  cases l with
  | nil => exact absurd rfl hl
  | cons x xs =>
    rcases (minOver_fold d xs (d x)).1 with h | ⟨y, hy, h⟩
    · exact ⟨x, by simp, h⟩
    · exact ⟨y, by simp [hy], h⟩

theorem minOver_le [Zero K] (d : Nat → K) {l : List Nat} {x : Nat} (hx : x ∈ l) : minOver d l ≤ d x := by
  cases l with
  | nil => simp at hx
  | cons y ys =>
    rcases List.mem_cons.1 hx with rfl | hx
    · exact (minOver_fold d ys (d x)).2.1
    · exact (minOver_fold d ys (d y)).2.2 x hx

end Sys2Proof.Machine
end

