-- ==== Sys2Proof/Machine/AnyNum.lean ====
section
/-! DEFINITION. The machine over any number type. `Num` is an open parameter of the model (00_scope.md R5): every
meaning takes it as an argument, and here the dispatch and the step take it too. `exec` and `step` are these at
the default number type (`exec_eq_execOver`, `step_eq_stepOver` in Laws/AnyNum.lean). -/

namespace Sys2Proof.Machine

variable {K : Type} [Field K] [LinearOrder K] [Inhabited K]

/-- A command over the number type `K`, by the same meanings as `exec`. -/
def execOver (i : Instr) (s : State K) : Result K :=
  match i with
  | .mapInit o => execMapInit o s
  | .mapInstall => execMapInstall s
  | .mapOrder => execMapOrder s
  | .mapBps => execMapBps s
  | .mapGet idx => execMapGet idx s
  | .bufMake bd len => execBufMake bd len s
  | .bufStore bd idx => execBufStore bd idx s
  | .bufLoad bs idx => execBufLoad bs idx s
  | .bufCopy bd bs => execBufCopy bd bs s
  | .modBind e => execModBind e s
  | .modulate bd => execModulate bd s
  | .demBind e => execDemBind e s
  | .demod bs => execDemod bs s
  | .demodLlr bs h => execDemodLlr bs h s
  | .llrBit bs idx pos => execLlrBit bs idx pos s
  | .chSet => execChSet s
  | .chTxs => execChTxs s
  | .chTxb bd bs => execChTxb bd bs s
  | .chQ => execChQ s
  | .chLogq => execChLogq s
  | .halt => execHalt s

/-- One step over the number type `K` (45_control.md R160). -/
def stepOver (s : State K) : Result K :=
  match s.run with
  | .running =>
    if pastEnd s then takeIllegal s
    else
      match fetch s with
      | .ok i => execOver i s
      | .error _ => takeIllegal s
  | .idle => .next s
  | .done => .next s
  | .faulted => .next s

/-- The machine over `K` right after power-on (10_state.md R31). -/
def resetOver (K : Type) [Field K] [LinearOrder K] [Inhabited K] : State K :=
  State.resetWith Config.params

end Sys2Proof.Machine
end

