-- ==== Sys2Proof/Laws/AnyNum.lean ====
section
/-! SUPPORT. The model's machine is the machine over any number type at the exact rationals, and the nearest-point
search gives the same index in every ordered field the data is taken to (log entry 1). -/

namespace Sys2Proof.Machine

theorem exec_eq_execOver (i : Instr) (s : State) : exec i s = execOver i s := by cases i <;> rfl

theorem step_eq_stepOver (s : State) : step s = stepOver s := by
  unfold step stepOver
  simp only [exec_eq_execOver] <;> rfl

theorem reset_eq_resetOver : State.reset = resetOver QNum := rfl

variable {K L : Type}

/-- A map of number fields takes squared distances to squared distances. -/
theorem dist2_map [Field K] [Field L] (f : K →+* L) (x p : Point K) :
    dist2 ⟨f x.i, f x.q⟩ ⟨f p.i, f p.q⟩ = f (dist2 x p) := by
  simp [dist2]

/-- A strictly increasing map of the distances leaves the search's answer. -/
theorem nearestOf_map [LinearOrder K] [LinearOrder L] {f : K → L} (hf : StrictMono f) (d : Nat → K)
    {m : Nat} (hm : 0 < m) : nearestOf (fun idx => f (d idx)) m = nearestOf d m := by
  have lower : nearestOf (fun idx => f (d idx)) m ≤ nearestOf d m := by
    by_contra h
    exact absurd (nearestOf_first (fun idx => f (d idx)) (not_le.1 h))
      (not_lt.2 (hf.monotone (nearestOf_le d (nearestOf_lt _ hm))))
  have upper : nearestOf d m ≤ nearestOf (fun idx => f (d idx)) m := by
    by_contra h
    exact absurd (hf (nearestOf_first d (not_le.1 h)))
      (not_lt.2 (nearestOf_le (fun idx => f (d idx)) (nearestOf_lt d hm)))
  exact le_antisymm lower upper

end Sys2Proof.Machine
end

