-- ==== Sys2Proof/Laws/Memory.lean ====
section
/-! SUPPORT. What the memory operations do: read after write, after a fill and after forgetting, and that
each keeps the canonical form and the index bound. -/

namespace Sys2Proof.Machine

variable {α : Type}

@[simp] theorem Memory.read_nil (a : Nat) : Memory.read ([] : Memory α) a = none := rfl

theorem Memory.read_write_same (m : Memory α) (a : Nat) (v : α) : (m.write a v).read a = some v := by
  induction m with
  | nil => simp [Memory.write, Memory.read]
  | cons e m ih =>
    obtain ⟨k, x⟩ := e
    unfold Memory.write
    split
    · simp [Memory.read, ih, show ¬k = a by omega]
    · split <;> simp [Memory.read]

theorem Memory.read_write_of_ne (m : Memory α) {a b : Nat} (v : α) (h : b ≠ a) :
    (m.write a v).read b = m.read b := by
  induction m with
  | nil => simp [Memory.write, Memory.read, Ne.symm h]
  | cons e m ih =>
    obtain ⟨k, x⟩ := e
    unfold Memory.write
    split
    · simp [Memory.read, ih]
    · split
      · subst_vars; simp [Memory.read, Ne.symm h]
      · simp [Memory.read, Ne.symm h]

theorem Memory.read_write (m : Memory α) (a b : Nat) (v : α) :
    (m.write a v).read b = if b = a then some v else m.read b := by
  split
  · subst_vars; exact Memory.read_write_same ..
  · exact Memory.read_write_of_ne _ _ ‹_›

theorem Memory.read_append (m n : Memory α) (a : Nat) :
    Memory.read (m ++ n) a = (m.read a).or (n.read a) := by
  induction m with
  | nil => simp
  | cons e m ih =>
    obtain ⟨k, x⟩ := e
    simp only [List.cons_append, Memory.read]
    split <;> simp [ih]

theorem Memory.read_filter_ge (m : Memory α) (n a : Nat) :
    Memory.read (m.filter (fun e => decide (n ≤ e.1))) a = if n ≤ a then m.read a else none := by
  induction m with
  | nil => simp [Memory.read]
  | cons e m ih =>
    obtain ⟨k, x⟩ := e
    by_cases hk : n ≤ k
    · simp only [List.filter_cons, hk, decide_true, if_true, Memory.read, ih]
      by_cases hka : k = a
      · subst hka; simp [hk]
      · simp [hka]
    · rw [List.filter_cons_of_neg (by simpa using hk), ih]
      by_cases hka : k = a
      · subst hka; simp [hk]
      · simp [Memory.read, hka]

theorem Memory.read_of_forall_ne (m : Memory α) (a : Nat) (h : ∀ e ∈ m, e.1 ≠ a) :
    m.read a = none := by
  induction m with
  | nil => rfl
  | cons e m ih =>
    obtain ⟨k, x⟩ := e
    simp only [List.mem_cons, forall_eq_or_imp] at h
    simp [Memory.read, h.1, ih h.2]

theorem Memory.read_range_map (n a : Nat) (f : Nat → α) :
    Memory.read ((List.range n).map (fun a => (a, f a))) a = if a < n then some (f a) else none := by
  induction n with
  | zero => simp
  | succ n ih =>
    rw [List.range_succ, List.map_append, Memory.read_append, ih]
    by_cases h : a < n
    · simp [h, Nat.lt_succ_of_lt h]
    · by_cases h' : a = n
      · subst h'; simp [Memory.read]
      · simp [Memory.read, h, Ne.symm h', show ¬a < n + 1 by omega]

/-- A fill writes `f a` at every index below `n` and leaves every other index as it was. -/
theorem Memory.read_fill (m : Memory α) (n a : Nat) (f : Nat → α) :
    (m.fill n f).read a = if a < n then some (f a) else m.read a := by
  unfold Memory.fill
  rw [Memory.read_append, Memory.read_range_map, Memory.read_filter_ge]
  by_cases h : a < n
  · simp [h]
  · simp [h, show n ≤ a by omega]

/-- Below `n` nothing is written any more; every other index is as it was. -/
theorem Memory.read_forgetBelow (m : Memory α) (n a : Nat) :
    (m.forgetBelow n).read a = if n ≤ a then m.read a else none :=
  Memory.read_filter_ge m n a

theorem Memory.read_isSome_lt {m : Memory α} {n a : Nat} (h : m.below n) (ha : (m.read a).isSome) :
    a < n := by
  by_contra hc
  rw [Memory.read_of_forall_ne m a (fun e he => by have := h e he; omega)] at ha
  simp at ha

/-! ### The canonical form -/

theorem Memory.mem_write {m : Memory α} {a : Nat} {v : α} {e : Nat × α} (h : e ∈ m.write a v) :
    e = (a, v) ∨ e ∈ m := by
  induction m with
  | nil => simpa [Memory.write] using h
  | cons x m ih =>
    obtain ⟨k, x⟩ := x
    unfold Memory.write at h
    split at h
    · rcases List.mem_cons.1 h with h | h
      · exact .inr (by simp [h])
      · rcases ih h with h | h
        · exact .inl h
        · exact .inr (List.mem_cons_of_mem _ h)
    · split at h
      · rcases List.mem_cons.1 h with h | h
        · exact .inl h
        · exact .inr (List.mem_cons_of_mem _ h)
      · rcases List.mem_cons.1 h with h | h
        · exact .inl h
        · exact .inr h

theorem Memory.write_wf {m : Memory α} (h : m.wf) (a : Nat) (v : α) : (m.write a v).wf := by
  induction m with
  | nil => simp [Memory.write, Memory.wf]
  | cons x m ih =>
    obtain ⟨k, x⟩ := x
    have hm := List.pairwise_cons.1 h
    unfold Memory.write
    split
    · refine List.pairwise_cons.2 ⟨fun e he => ?_, ih hm.2⟩
      rcases Memory.mem_write he with rfl | he
      · assumption
      · exact hm.1 e he
    · split
      · subst_vars; exact List.pairwise_cons.2 ⟨hm.1, hm.2⟩
      · refine List.pairwise_cons.2 ⟨fun e he => ?_, h⟩
        rcases List.mem_cons.1 he with rfl | he
        · simp only; omega
        · have := hm.1 e he; simp only at this ⊢; omega

theorem Memory.write_below {m : Memory α} {size : Nat} (h : m.below size) {a : Nat} (ha : a < size)
    (v : α) : (m.write a v).below size := by
  intro e he
  rcases Memory.mem_write he with rfl | he
  · exact ha
  · exact h e he

theorem Memory.fill_wf {m : Memory α} (h : m.wf) (n : Nat) (f : Nat → α) : (m.fill n f).wf := by
  unfold Memory.fill
  refine List.pairwise_append.2 ⟨?_, h.filter _, fun x hx y hy => ?_⟩
  · exact List.pairwise_map.2 List.pairwise_lt_range
  · obtain ⟨a, ha, rfl⟩ := List.mem_map.1 hx
    have h1 := List.mem_range.1 ha
    have h2 := of_decide_eq_true (List.mem_filter.1 hy).2
    simp only; omega

theorem Memory.fill_below {m : Memory α} {size : Nat} (h : m.below size) {n : Nat} (hn : n ≤ size)
    (f : Nat → α) : (m.fill n f).below size := by
  intro e he
  rcases List.mem_append.1 he with he | he
  · obtain ⟨a, ha, rfl⟩ := List.mem_map.1 he
    have := List.mem_range.1 ha
    simp only; omega
  · exact h e (List.mem_filter.1 he).1

theorem Memory.forgetBelow_wf {m : Memory α} (h : m.wf) (n : Nat) : (m.forgetBelow n).wf :=
  h.filter _

theorem Memory.forgetBelow_below {m : Memory α} {size : Nat} (h : m.below size) (n : Nat) :
    (m.forgetBelow n).below size :=
  fun e he => h e (List.mem_filter.1 he).1

/-- In canonical form, two spaces that read alike at every index are the same list. -/
theorem Memory.ext_of_wf {m n : Memory α} (hm : m.wf) (hn : n.wf) (h : ∀ a, m.read a = n.read a) :
    m = n := by
  induction m generalizing n with
  | nil =>
    cases n with
    | nil => rfl
    | cons e n => have := h e.1; simp [Memory.read] at this
  | cons e m ih =>
    cases n with
    | nil => have := h e.1; simp [Memory.read] at this
    | cons e' n =>
      obtain ⟨k, x⟩ := e
      obtain ⟨k', x'⟩ := e'
      have hm' := List.pairwise_cons.1 hm
      have hn' := List.pairwise_cons.1 hn
      have hmk : ∀ a ≤ k, Memory.read m a = none := fun a ha =>
        Memory.read_of_forall_ne m a (fun e he => by have := hm'.1 e he; simp only at this; omega)
      have hnk : ∀ a ≤ k', Memory.read n a = none := fun a ha =>
        Memory.read_of_forall_ne n a (fun e he => by have := hn'.1 e he; simp only at this; omega)
      have hk : k = k' := by
        by_contra hne
        rcases Nat.lt_or_gt_of_ne hne with hlt | hlt
        · have := h k; simp [Memory.read, Ne.symm hne, hnk k (by omega)] at this
        · have := h k'; simp [Memory.read, hne, hmk k' (by omega)] at this
      subst hk
      have hx : x = x' := by have := h k; simpa [Memory.read] using this
      subst hx
      refine congrArg _ (ih hm'.2 hn'.2 (fun a => ?_))
      by_cases ha : k = a
      · subst ha; rw [hmk k (by omega), hnk k (by omega)]
      · have := h a; simpa [Memory.read, ha] using this

end Sys2Proof.Machine
end

