-- ==== Sys2Proof/Laws/State.lean ====
section
/-! SUPPORT. One lemma per field of State for each update that the commands share: fault entry, the
advance of PC, a buffer replaced, a buffer filled, and a noise draw. -/

namespace Sys2Proof.Machine

variable {K : Type}

@[simp] theorem raise_params (f : CmdFault) (s : State K) : (raise f s).params = s.params := rfl
@[simp] theorem raise_pc (f : CmdFault) (s : State K) : (raise f s).pc = s.pc := rfl
@[simp] theorem raise_run (f : CmdFault) (s : State K) : (raise f s).run = .faulted := rfl
@[simp] theorem raise_err (f : CmdFault) (s : State K) : (raise f s).err = some f := rfl
@[simp] theorem raise_epc (f : CmdFault) (s : State K) : (raise f s).epc = s.pc := rfl
@[simp] theorem raise_mapValid (f : CmdFault) (s : State K) : (raise f s).mapValid = s.mapValid := rfl
@[simp] theorem raise_order (f : CmdFault) (s : State K) : (raise f s).order = s.order := rfl
@[simp] theorem raise_custom (f : CmdFault) (s : State K) : (raise f s).custom = s.custom := rfl
@[simp] theorem raise_ct (f : CmdFault) (s : State K) : (raise f s).ct = s.ct := rfl
@[simp] theorem raise_gt (f : CmdFault) (s : State K) : (raise f s).gt = s.gt := rfl
@[simp] theorem raise_modBound (f : CmdFault) (s : State K) : (raise f s).modBound = s.modBound := rfl
@[simp] theorem raise_demBound (f : CmdFault) (s : State K) : (raise f s).demBound = s.demBound := rfl
@[simp] theorem raise_bufs (f : CmdFault) (s : State K) : (raise f s).bufs = s.bufs := rfl
@[simp] theorem raise_bin (f : CmdFault) (s : State K) : (raise f s).bin = s.bin := rfl
@[simp] theorem raise_binLen (f : CmdFault) (s : State K) : (raise f s).binLen = s.binLen := rfl
@[simp] theorem raise_bout (f : CmdFault) (s : State K) : (raise f s).bout = s.bout := rfl
@[simp] theorem raise_boutLen (f : CmdFault) (s : State K) : (raise f s).boutLen = s.boutLen := rfl
@[simp] theorem raise_llr (f : CmdFault) (s : State K) : (raise f s).llr = s.llr := rfl
@[simp] theorem raise_llrLen (f : CmdFault) (s : State K) : (raise f s).llrLen = s.llrLen := rfl
@[simp] theorem raise_chValid (f : CmdFault) (s : State K) : (raise f s).chValid = s.chValid := rfl
@[simp] theorem raise_sigma (f : CmdFault) (s : State K) : (raise f s).sigma = s.sigma := rfl
@[simp] theorem raise_nz (f : CmdFault) (s : State K) : (raise f s).nz = s.nz := rfl
@[simp] theorem raise_cursor (f : CmdFault) (s : State K) : (raise f s).cursor = s.cursor := rfl
@[simp] theorem raise_regens (f : CmdFault) (s : State K) : (raise f s).regens = s.regens := rfl
@[simp] theorem raise_oracle (f : CmdFault) (s : State K) : (raise f s).oracle = s.oracle := rfl
@[simp] theorem raise_di (f : CmdFault) (s : State K) : (raise f s).di = s.di := rfl
@[simp] theorem raise_dq (f : CmdFault) (s : State K) : (raise f s).dq = s.dq := rfl
@[simp] theorem raise_res (f : CmdFault) (s : State K) : (raise f s).res = s.res := rfl
@[simp] theorem raise_qr (f : CmdFault) (s : State K) : (raise f s).qr = s.qr := rfl
@[simp] theorem raise_cm (f : CmdFault) (s : State K) : (raise f s).cm = s.cm := rfl
@[simp] theorem raise_era (f : CmdFault) (s : State K) : (raise f s).era = s.era := rfl
@[simp] theorem raise_fresh (f : CmdFault) (s : State K) : (raise f s).fresh = s.fresh := rfl

@[simp] theorem advance_params (s : State K) : (advance s).params = s.params := rfl
@[simp] theorem advance_pc (s : State K) : (advance s).pc = s.pc + 1 := rfl
@[simp] theorem advance_run (s : State K) : (advance s).run = s.run := rfl
@[simp] theorem advance_err (s : State K) : (advance s).err = s.err := rfl
@[simp] theorem advance_epc (s : State K) : (advance s).epc = s.epc := rfl
@[simp] theorem advance_mapValid (s : State K) : (advance s).mapValid = s.mapValid := rfl
@[simp] theorem advance_order (s : State K) : (advance s).order = s.order := rfl
@[simp] theorem advance_custom (s : State K) : (advance s).custom = s.custom := rfl
@[simp] theorem advance_ct (s : State K) : (advance s).ct = s.ct := rfl
@[simp] theorem advance_gt (s : State K) : (advance s).gt = s.gt := rfl
@[simp] theorem advance_modBound (s : State K) : (advance s).modBound = s.modBound := rfl
@[simp] theorem advance_demBound (s : State K) : (advance s).demBound = s.demBound := rfl
@[simp] theorem advance_bufs (s : State K) : (advance s).bufs = s.bufs := rfl
@[simp] theorem advance_bin (s : State K) : (advance s).bin = s.bin := rfl
@[simp] theorem advance_binLen (s : State K) : (advance s).binLen = s.binLen := rfl
@[simp] theorem advance_bout (s : State K) : (advance s).bout = s.bout := rfl
@[simp] theorem advance_boutLen (s : State K) : (advance s).boutLen = s.boutLen := rfl
@[simp] theorem advance_llr (s : State K) : (advance s).llr = s.llr := rfl
@[simp] theorem advance_llrLen (s : State K) : (advance s).llrLen = s.llrLen := rfl
@[simp] theorem advance_chValid (s : State K) : (advance s).chValid = s.chValid := rfl
@[simp] theorem advance_sigma (s : State K) : (advance s).sigma = s.sigma := rfl
@[simp] theorem advance_nz (s : State K) : (advance s).nz = s.nz := rfl
@[simp] theorem advance_cursor (s : State K) : (advance s).cursor = s.cursor := rfl
@[simp] theorem advance_regens (s : State K) : (advance s).regens = s.regens := rfl
@[simp] theorem advance_oracle (s : State K) : (advance s).oracle = s.oracle := rfl
@[simp] theorem advance_di (s : State K) : (advance s).di = s.di := rfl
@[simp] theorem advance_dq (s : State K) : (advance s).dq = s.dq := rfl
@[simp] theorem advance_res (s : State K) : (advance s).res = s.res := rfl
@[simp] theorem advance_qr (s : State K) : (advance s).qr = s.qr := rfl
@[simp] theorem advance_cm (s : State K) : (advance s).cm = s.cm := rfl
@[simp] theorem advance_era (s : State K) : (advance s).era = s.era := rfl
@[simp] theorem advance_fresh (s : State K) : (advance s).fresh = s.fresh := rfl

@[simp] theorem setBuf_params (b : BufId) (x : Buffer K) (s : State K) : (s.setBuf b x).params = s.params := rfl
@[simp] theorem setBuf_pc (b : BufId) (x : Buffer K) (s : State K) : (s.setBuf b x).pc = s.pc := rfl
@[simp] theorem setBuf_run (b : BufId) (x : Buffer K) (s : State K) : (s.setBuf b x).run = s.run := rfl
@[simp] theorem setBuf_err (b : BufId) (x : Buffer K) (s : State K) : (s.setBuf b x).err = s.err := rfl
@[simp] theorem setBuf_epc (b : BufId) (x : Buffer K) (s : State K) : (s.setBuf b x).epc = s.epc := rfl
@[simp] theorem setBuf_mapValid (b : BufId) (x : Buffer K) (s : State K) : (s.setBuf b x).mapValid = s.mapValid := rfl
@[simp] theorem setBuf_order (b : BufId) (x : Buffer K) (s : State K) : (s.setBuf b x).order = s.order := rfl
@[simp] theorem setBuf_custom (b : BufId) (x : Buffer K) (s : State K) : (s.setBuf b x).custom = s.custom := rfl
@[simp] theorem setBuf_ct (b : BufId) (x : Buffer K) (s : State K) : (s.setBuf b x).ct = s.ct := rfl
@[simp] theorem setBuf_gt (b : BufId) (x : Buffer K) (s : State K) : (s.setBuf b x).gt = s.gt := rfl
@[simp] theorem setBuf_modBound (b : BufId) (x : Buffer K) (s : State K) : (s.setBuf b x).modBound = s.modBound := rfl
@[simp] theorem setBuf_demBound (b : BufId) (x : Buffer K) (s : State K) : (s.setBuf b x).demBound = s.demBound := rfl
@[simp] theorem setBuf_bufs (b : BufId) (x : Buffer K) (s : State K) : (s.setBuf b x).bufs = s.bufs.set b.val x := rfl
@[simp] theorem setBuf_bin (b : BufId) (x : Buffer K) (s : State K) : (s.setBuf b x).bin = s.bin := rfl
@[simp] theorem setBuf_binLen (b : BufId) (x : Buffer K) (s : State K) : (s.setBuf b x).binLen = s.binLen := rfl
@[simp] theorem setBuf_bout (b : BufId) (x : Buffer K) (s : State K) : (s.setBuf b x).bout = s.bout := rfl
@[simp] theorem setBuf_boutLen (b : BufId) (x : Buffer K) (s : State K) : (s.setBuf b x).boutLen = s.boutLen := rfl
@[simp] theorem setBuf_llr (b : BufId) (x : Buffer K) (s : State K) : (s.setBuf b x).llr = s.llr := rfl
@[simp] theorem setBuf_llrLen (b : BufId) (x : Buffer K) (s : State K) : (s.setBuf b x).llrLen = s.llrLen := rfl
@[simp] theorem setBuf_chValid (b : BufId) (x : Buffer K) (s : State K) : (s.setBuf b x).chValid = s.chValid := rfl
@[simp] theorem setBuf_sigma (b : BufId) (x : Buffer K) (s : State K) : (s.setBuf b x).sigma = s.sigma := rfl
@[simp] theorem setBuf_nz (b : BufId) (x : Buffer K) (s : State K) : (s.setBuf b x).nz = s.nz := rfl
@[simp] theorem setBuf_cursor (b : BufId) (x : Buffer K) (s : State K) : (s.setBuf b x).cursor = s.cursor := rfl
@[simp] theorem setBuf_regens (b : BufId) (x : Buffer K) (s : State K) : (s.setBuf b x).regens = s.regens := rfl
@[simp] theorem setBuf_oracle (b : BufId) (x : Buffer K) (s : State K) : (s.setBuf b x).oracle = s.oracle := rfl
@[simp] theorem setBuf_di (b : BufId) (x : Buffer K) (s : State K) : (s.setBuf b x).di = s.di := rfl
@[simp] theorem setBuf_dq (b : BufId) (x : Buffer K) (s : State K) : (s.setBuf b x).dq = s.dq := rfl
@[simp] theorem setBuf_res (b : BufId) (x : Buffer K) (s : State K) : (s.setBuf b x).res = s.res := rfl
@[simp] theorem setBuf_qr (b : BufId) (x : Buffer K) (s : State K) : (s.setBuf b x).qr = s.qr := rfl
@[simp] theorem setBuf_cm (b : BufId) (x : Buffer K) (s : State K) : (s.setBuf b x).cm = s.cm := rfl
@[simp] theorem setBuf_era (b : BufId) (x : Buffer K) (s : State K) : (s.setBuf b x).era = s.era := rfl
@[simp] theorem setBuf_fresh (b : BufId) (x : Buffer K) (s : State K) : (s.setBuf b x).fresh = s.fresh := rfl

@[simp] theorem fillBuf_params (b : BufId) (c n : Nat) (g : Nat → K) (s : State K) : (s.fillBuf b c n g).params = s.params := rfl
@[simp] theorem fillBuf_pc (b : BufId) (c n : Nat) (g : Nat → K) (s : State K) : (s.fillBuf b c n g).pc = s.pc := rfl
@[simp] theorem fillBuf_run (b : BufId) (c n : Nat) (g : Nat → K) (s : State K) : (s.fillBuf b c n g).run = s.run := rfl
@[simp] theorem fillBuf_err (b : BufId) (c n : Nat) (g : Nat → K) (s : State K) : (s.fillBuf b c n g).err = s.err := rfl
@[simp] theorem fillBuf_epc (b : BufId) (c n : Nat) (g : Nat → K) (s : State K) : (s.fillBuf b c n g).epc = s.epc := rfl
@[simp] theorem fillBuf_mapValid (b : BufId) (c n : Nat) (g : Nat → K) (s : State K) : (s.fillBuf b c n g).mapValid = s.mapValid := rfl
@[simp] theorem fillBuf_order (b : BufId) (c n : Nat) (g : Nat → K) (s : State K) : (s.fillBuf b c n g).order = s.order := rfl
@[simp] theorem fillBuf_custom (b : BufId) (c n : Nat) (g : Nat → K) (s : State K) : (s.fillBuf b c n g).custom = s.custom := rfl
@[simp] theorem fillBuf_ct (b : BufId) (c n : Nat) (g : Nat → K) (s : State K) : (s.fillBuf b c n g).ct = s.ct := rfl
@[simp] theorem fillBuf_gt (b : BufId) (c n : Nat) (g : Nat → K) (s : State K) : (s.fillBuf b c n g).gt = s.gt := rfl
@[simp] theorem fillBuf_modBound (b : BufId) (c n : Nat) (g : Nat → K) (s : State K) : (s.fillBuf b c n g).modBound = s.modBound := rfl
@[simp] theorem fillBuf_demBound (b : BufId) (c n : Nat) (g : Nat → K) (s : State K) : (s.fillBuf b c n g).demBound = s.demBound := rfl
@[simp] theorem fillBuf_bin (b : BufId) (c n : Nat) (g : Nat → K) (s : State K) : (s.fillBuf b c n g).bin = s.bin := rfl
@[simp] theorem fillBuf_binLen (b : BufId) (c n : Nat) (g : Nat → K) (s : State K) : (s.fillBuf b c n g).binLen = s.binLen := rfl
@[simp] theorem fillBuf_bout (b : BufId) (c n : Nat) (g : Nat → K) (s : State K) : (s.fillBuf b c n g).bout = s.bout := rfl
@[simp] theorem fillBuf_boutLen (b : BufId) (c n : Nat) (g : Nat → K) (s : State K) : (s.fillBuf b c n g).boutLen = s.boutLen := rfl
@[simp] theorem fillBuf_llr (b : BufId) (c n : Nat) (g : Nat → K) (s : State K) : (s.fillBuf b c n g).llr = s.llr := rfl
@[simp] theorem fillBuf_llrLen (b : BufId) (c n : Nat) (g : Nat → K) (s : State K) : (s.fillBuf b c n g).llrLen = s.llrLen := rfl
@[simp] theorem fillBuf_chValid (b : BufId) (c n : Nat) (g : Nat → K) (s : State K) : (s.fillBuf b c n g).chValid = s.chValid := rfl
@[simp] theorem fillBuf_sigma (b : BufId) (c n : Nat) (g : Nat → K) (s : State K) : (s.fillBuf b c n g).sigma = s.sigma := rfl
@[simp] theorem fillBuf_nz (b : BufId) (c n : Nat) (g : Nat → K) (s : State K) : (s.fillBuf b c n g).nz = s.nz := rfl
@[simp] theorem fillBuf_cursor (b : BufId) (c n : Nat) (g : Nat → K) (s : State K) : (s.fillBuf b c n g).cursor = s.cursor := rfl
@[simp] theorem fillBuf_regens (b : BufId) (c n : Nat) (g : Nat → K) (s : State K) : (s.fillBuf b c n g).regens = s.regens := rfl
@[simp] theorem fillBuf_oracle (b : BufId) (c n : Nat) (g : Nat → K) (s : State K) : (s.fillBuf b c n g).oracle = s.oracle := rfl
@[simp] theorem fillBuf_di (b : BufId) (c n : Nat) (g : Nat → K) (s : State K) : (s.fillBuf b c n g).di = s.di := rfl
@[simp] theorem fillBuf_dq (b : BufId) (c n : Nat) (g : Nat → K) (s : State K) : (s.fillBuf b c n g).dq = s.dq := rfl
@[simp] theorem fillBuf_res (b : BufId) (c n : Nat) (g : Nat → K) (s : State K) : (s.fillBuf b c n g).res = s.res := rfl
@[simp] theorem fillBuf_qr (b : BufId) (c n : Nat) (g : Nat → K) (s : State K) : (s.fillBuf b c n g).qr = s.qr := rfl
@[simp] theorem fillBuf_cm (b : BufId) (c n : Nat) (g : Nat → K) (s : State K) : (s.fillBuf b c n g).cm = s.cm := rfl
@[simp] theorem fillBuf_era (b : BufId) (c n : Nat) (g : Nat → K) (s : State K) : (s.fillBuf b c n g).era = s.era := rfl
@[simp] theorem fillBuf_fresh (b : BufId) (c n : Nat) (g : Nat → K) (s : State K) : (s.fillBuf b c n g).fresh = s.fresh := rfl

@[simp] theorem makeBuf_params (b : BufId) (c : Nat) (s : State K) : (s.makeBuf b c).params = s.params := rfl
@[simp] theorem makeBuf_pc (b : BufId) (c : Nat) (s : State K) : (s.makeBuf b c).pc = s.pc := rfl
@[simp] theorem makeBuf_run (b : BufId) (c : Nat) (s : State K) : (s.makeBuf b c).run = s.run := rfl
@[simp] theorem makeBuf_err (b : BufId) (c : Nat) (s : State K) : (s.makeBuf b c).err = s.err := rfl
@[simp] theorem makeBuf_epc (b : BufId) (c : Nat) (s : State K) : (s.makeBuf b c).epc = s.epc := rfl
@[simp] theorem makeBuf_mapValid (b : BufId) (c : Nat) (s : State K) : (s.makeBuf b c).mapValid = s.mapValid := rfl
@[simp] theorem makeBuf_order (b : BufId) (c : Nat) (s : State K) : (s.makeBuf b c).order = s.order := rfl
@[simp] theorem makeBuf_custom (b : BufId) (c : Nat) (s : State K) : (s.makeBuf b c).custom = s.custom := rfl
@[simp] theorem makeBuf_ct (b : BufId) (c : Nat) (s : State K) : (s.makeBuf b c).ct = s.ct := rfl
@[simp] theorem makeBuf_gt (b : BufId) (c : Nat) (s : State K) : (s.makeBuf b c).gt = s.gt := rfl
@[simp] theorem makeBuf_modBound (b : BufId) (c : Nat) (s : State K) : (s.makeBuf b c).modBound = s.modBound := rfl
@[simp] theorem makeBuf_demBound (b : BufId) (c : Nat) (s : State K) : (s.makeBuf b c).demBound = s.demBound := rfl
@[simp] theorem makeBuf_bin (b : BufId) (c : Nat) (s : State K) : (s.makeBuf b c).bin = s.bin := rfl
@[simp] theorem makeBuf_binLen (b : BufId) (c : Nat) (s : State K) : (s.makeBuf b c).binLen = s.binLen := rfl
@[simp] theorem makeBuf_bout (b : BufId) (c : Nat) (s : State K) : (s.makeBuf b c).bout = s.bout := rfl
@[simp] theorem makeBuf_boutLen (b : BufId) (c : Nat) (s : State K) : (s.makeBuf b c).boutLen = s.boutLen := rfl
@[simp] theorem makeBuf_llr (b : BufId) (c : Nat) (s : State K) : (s.makeBuf b c).llr = s.llr := rfl
@[simp] theorem makeBuf_llrLen (b : BufId) (c : Nat) (s : State K) : (s.makeBuf b c).llrLen = s.llrLen := rfl
@[simp] theorem makeBuf_chValid (b : BufId) (c : Nat) (s : State K) : (s.makeBuf b c).chValid = s.chValid := rfl
@[simp] theorem makeBuf_sigma (b : BufId) (c : Nat) (s : State K) : (s.makeBuf b c).sigma = s.sigma := rfl
@[simp] theorem makeBuf_nz (b : BufId) (c : Nat) (s : State K) : (s.makeBuf b c).nz = s.nz := rfl
@[simp] theorem makeBuf_cursor (b : BufId) (c : Nat) (s : State K) : (s.makeBuf b c).cursor = s.cursor := rfl
@[simp] theorem makeBuf_regens (b : BufId) (c : Nat) (s : State K) : (s.makeBuf b c).regens = s.regens := rfl
@[simp] theorem makeBuf_oracle (b : BufId) (c : Nat) (s : State K) : (s.makeBuf b c).oracle = s.oracle := rfl
@[simp] theorem makeBuf_di (b : BufId) (c : Nat) (s : State K) : (s.makeBuf b c).di = s.di := rfl
@[simp] theorem makeBuf_dq (b : BufId) (c : Nat) (s : State K) : (s.makeBuf b c).dq = s.dq := rfl
@[simp] theorem makeBuf_res (b : BufId) (c : Nat) (s : State K) : (s.makeBuf b c).res = s.res := rfl
@[simp] theorem makeBuf_qr (b : BufId) (c : Nat) (s : State K) : (s.makeBuf b c).qr = s.qr := rfl
@[simp] theorem makeBuf_cm (b : BufId) (c : Nat) (s : State K) : (s.makeBuf b c).cm = s.cm := rfl
@[simp] theorem makeBuf_era (b : BufId) (c : Nat) (s : State K) : (s.makeBuf b c).era = s.era := rfl
@[simp] theorem makeBuf_fresh (b : BufId) (c : Nat) (s : State K) : (s.makeBuf b c).fresh = s.fresh + 1 := rfl

@[simp] theorem draw_params [Inhabited K] (s : State K) : (draw s).2.params = s.params := rfl
@[simp] theorem draw_pc [Inhabited K] (s : State K) : (draw s).2.pc = s.pc := rfl
@[simp] theorem draw_run [Inhabited K] (s : State K) : (draw s).2.run = s.run := rfl
@[simp] theorem draw_err [Inhabited K] (s : State K) : (draw s).2.err = s.err := rfl
@[simp] theorem draw_epc [Inhabited K] (s : State K) : (draw s).2.epc = s.epc := rfl
@[simp] theorem draw_mapValid [Inhabited K] (s : State K) : (draw s).2.mapValid = s.mapValid := rfl
@[simp] theorem draw_order [Inhabited K] (s : State K) : (draw s).2.order = s.order := rfl
@[simp] theorem draw_custom [Inhabited K] (s : State K) : (draw s).2.custom = s.custom := rfl
@[simp] theorem draw_ct [Inhabited K] (s : State K) : (draw s).2.ct = s.ct := rfl
@[simp] theorem draw_gt [Inhabited K] (s : State K) : (draw s).2.gt = s.gt := rfl
@[simp] theorem draw_modBound [Inhabited K] (s : State K) : (draw s).2.modBound = s.modBound := rfl
@[simp] theorem draw_demBound [Inhabited K] (s : State K) : (draw s).2.demBound = s.demBound := rfl
@[simp] theorem draw_bufs [Inhabited K] (s : State K) : (draw s).2.bufs = s.bufs := rfl
@[simp] theorem draw_bin [Inhabited K] (s : State K) : (draw s).2.bin = s.bin := rfl
@[simp] theorem draw_binLen [Inhabited K] (s : State K) : (draw s).2.binLen = s.binLen := rfl
@[simp] theorem draw_bout [Inhabited K] (s : State K) : (draw s).2.bout = s.bout := rfl
@[simp] theorem draw_boutLen [Inhabited K] (s : State K) : (draw s).2.boutLen = s.boutLen := rfl
@[simp] theorem draw_llr [Inhabited K] (s : State K) : (draw s).2.llr = s.llr := rfl
@[simp] theorem draw_llrLen [Inhabited K] (s : State K) : (draw s).2.llrLen = s.llrLen := rfl
@[simp] theorem draw_chValid [Inhabited K] (s : State K) : (draw s).2.chValid = s.chValid := rfl
@[simp] theorem draw_sigma [Inhabited K] (s : State K) : (draw s).2.sigma = s.sigma := rfl
@[simp] theorem draw_nz [Inhabited K] (s : State K) : (draw s).2.nz = s.nz := rfl
@[simp] theorem draw_cursor [Inhabited K] (s : State K) : (draw s).2.cursor = (s.cursor + 1) % s.params.noiseLen := rfl
@[simp] theorem draw_regens [Inhabited K] (s : State K) : (draw s).2.regens = s.regens := rfl
@[simp] theorem draw_oracle [Inhabited K] (s : State K) : (draw s).2.oracle = s.oracle := rfl
@[simp] theorem draw_di [Inhabited K] (s : State K) : (draw s).2.di = s.di := rfl
@[simp] theorem draw_dq [Inhabited K] (s : State K) : (draw s).2.dq = s.dq := rfl
@[simp] theorem draw_res [Inhabited K] (s : State K) : (draw s).2.res = s.res := rfl
@[simp] theorem draw_qr [Inhabited K] (s : State K) : (draw s).2.qr = s.qr := rfl
@[simp] theorem draw_cm [Inhabited K] (s : State K) : (draw s).2.cm = s.cm := rfl
@[simp] theorem draw_era [Inhabited K] (s : State K) : (draw s).2.era = s.era := rfl
@[simp] theorem draw_fresh [Inhabited K] (s : State K) : (draw s).2.fresh = s.fresh := rfl

@[simp] theorem draw_value [Inhabited K] (s : State K) : (draw s).1 = s.nzValue s.cursor := rfl

@[simp] theorem buf_setBuf_same (s : State K) (b : BufId) (x : Buffer K) : (s.setBuf b x).buf b = x := by
  simp [State.buf, State.setBuf]

theorem buf_setBuf_of_ne (s : State K) {b c : BufId} (x : Buffer K) (h : c ≠ b) :
    (s.setBuf b x).buf c = s.buf c := by
  have : b.val ≠ c.val := fun e => h (Fin.ext e.symm)
  simp [State.buf, State.setBuf, this]

theorem buf_setBuf (s : State K) (b c : BufId) (x : Buffer K) :
    (s.setBuf b x).buf c = if c = b then x else s.buf c := by
  split
  · subst_vars; simp
  · exact buf_setBuf_of_ne s x ‹_›

/-- The filled buffer. -/
@[simp] theorem buf_fillBuf_same (s : State K) (b : BufId) (c n : Nat) (g : Nat → K) :
    (s.fillBuf b c n g).buf b =
      { cap := c, words := (s.buf b).words.fill n g, era := (s.buf b).era } := by
  simp [State.fillBuf]

theorem buf_fillBuf_of_ne (s : State K) {b d : BufId} (c n : Nat) (g : Nat → K) (h : d ≠ b) :
    (s.fillBuf b c n g).buf d = s.buf d := buf_setBuf_of_ne s _ h

/-- The new buffer. -/
@[simp] theorem buf_makeBuf_same (s : State K) (b : BufId) (c : Nat) :
    (s.makeBuf b c).buf b =
      { cap := c, words := (s.buf b).words.forgetBelow c, era := s.fresh } := by
  simp [State.buf, State.makeBuf]

theorem buf_makeBuf_of_ne (s : State K) {b d : BufId} (c : Nat) (h : d ≠ b) :
    (s.makeBuf b c).buf d = s.buf d := by
  have : b.val ≠ d.val := fun e => h (Fin.ext e.symm)
  simp [State.buf, State.makeBuf, this]

@[simp] theorem buf_raise (f : CmdFault) (s : State K) (b : BufId) : (raise f s).buf b = s.buf b := rfl
@[simp] theorem buf_advance (s : State K) (b : BufId) : (advance s).buf b = s.buf b := rfl
@[simp] theorem cap_advance (s : State K) (b : BufId) : (advance s).cap b = s.cap b := rfl
@[simp] theorem sbWord_advance [Inhabited K] (s : State K) (b : BufId) (a : Nat) :
    (advance s).sbWord b a = s.sbWord b a := rfl

/-- A word of a filled buffer: what the fill wrote, or what was there beyond it. -/
theorem sbWord_fillBuf_same [Inhabited K] (s : State K) (b : BufId) (c n : Nat) (g : Nat → K) (a : Nat) :
    (s.fillBuf b c n g).sbWord b a = if a < n then g a else s.sbWord b a := by
  unfold State.sbWord
  rw [buf_fillBuf_same]
  simp only [Memory.read_fill]
  split <;> simp

theorem sbWord_of_buf_eq [Inhabited K] {s t : State K} {b : BufId} (h : t.buf b = s.buf b) (a : Nat) :
    t.sbWord b a = s.sbWord b a := by
  simp [State.sbWord, h]

/-- The memory after power-on is in canonical form: nothing is listed. -/
theorem resetWith_memory_wf [Zero K] (p : Params K) (b : BufId) :
    (State.resetWith p).cm.wf ∧ (State.resetWith p).bin.wf ∧ (State.resetWith p).bout.wf ∧
      (State.resetWith p).llr.wf ∧ (State.resetWith p).ct.wf ∧ (State.resetWith p).gt.wf ∧
      (State.resetWith p).nz.wf ∧ ((State.resetWith p).buf b).words.wf := by
  simp [State.resetWith, State.afterReset, State.buf, Buffer.unmade, Memory.wf]

end Sys2Proof.Machine
end

