-- ==== Sys2Proof/Laws/Bits.lean ====
section
/-! SUPPORT. Bits of a number written most significant bit first, of a stream, and of a packed stream. -/

namespace Sys2Proof.Machine

@[simp] theorem fromMsb_zero (bit : Nat → Bool) : fromMsb 0 bit = 0 := rfl

/-- One more bit at the low end. -/
theorem fromMsb_succ (k : Nat) (bit : Nat → Bool) :
    fromMsb (k + 1) bit = 2 * fromMsb k bit + (bit k).toNat := by
  unfold fromMsb
  rw [List.range_succ, List.map_append, List.sum_append]
  simp only [List.map_cons, List.map_nil, List.sum_cons, List.sum_nil, Nat.add_sub_cancel,
    Nat.sub_self, Nat.shiftLeft_zero, Nat.add_zero]
  congr 1
  rw [← List.sum_map_mul_left]
  congr 1
  refine List.map_congr_left (fun j hj => ?_)
  have := List.mem_range.1 hj
  rw [Nat.shiftLeft_eq, Nat.shiftLeft_eq, show k - j = (k - 1 - j) + 1 by omega, Nat.pow_succ]
  ring

theorem fromMsb_lt (k : Nat) (bit : Nat → Bool) : fromMsb k bit < 2 ^ k := by
  induction k with
  | zero => simp
  | succ k ih =>
    rw [fromMsb_succ, Nat.pow_succ]
    have := Bool.toNat_lt (bit k)
    omega

/-- Bit `i` from the low end is bit `k - 1 - i` from the high end. -/
theorem testBit_fromMsb (k : Nat) (bit : Nat → Bool) {i : Nat} (hi : i < k) :
    (fromMsb k bit).testBit i = bit (k - 1 - i) := by
  induction k generalizing i with
  | zero => omega
  | succ k ih =>
    rw [fromMsb_succ]
    cases i with
    | zero => cases h : bit k <;> simp [Nat.testBit_zero, h]
    | succ i =>
      rw [Nat.testBit_succ, show (2 * fromMsb k bit + (bit k).toNat) / 2 = fromMsb k bit by
        have := Bool.toNat_lt (bit k); omega, ih (by omega)]
      congr 1; omega

/-- A number below `2^k` is the one made of its bits. -/
theorem fromMsb_testBit {k x : Nat} (hx : x < 2 ^ k) : fromMsb k (fun j => x.testBit (k - 1 - j)) = x := by
  refine Nat.eq_of_testBit_eq (fun i => ?_)
  by_cases hi : i < k
  · rw [testBit_fromMsb k _ hi]; congr 1; omega
  · rw [Nat.testBit_lt_two_pow (lt_of_lt_of_le (fromMsb_lt k _) (Nat.pow_le_pow_right (by omega) (by omega))),
      Nat.testBit_lt_two_pow (lt_of_lt_of_le hx (Nat.pow_le_pow_right (by omega) (by omega)))]

theorem fromMsb_congr {k : Nat} {b c : Nat → Bool} (h : ∀ j < k, b j = c j) :
    fromMsb k b = fromMsb k c := by
  unfold fromMsb
  refine congrArg _ (List.map_congr_left (fun j hj => ?_))
  rw [h j (List.mem_range.1 hj)]

/-- Bit `7 - i` of a packed byte. -/
theorem getLsbD_packedByte (k : Nat) (v : List Nat) (a : Nat) {i : Nat} (hi : i < 8) :
    (packedByte k v a).getLsbD (7 - i) = packedBit k v (8 * a + i) := by
  unfold packedByte
  rw [BitVec.getLsbD_ofNat, testBit_fromMsb 8 _ (by omega)]
  simp [show 7 - i < 8 by omega, show 7 - (7 - i) = i by omega]

/-- The stream of the packed bytes holds the packed bits. -/
theorem streamBit_packedByte (k : Nat) (v : List Nat) (nb p : Nat) (hp : p < 8 * nb) :
    streamBit (packedByte k v) nb p = packedBit k v p := by
  unfold streamBit
  rw [getLsbD_packedByte k v (p / 8) (Nat.mod_lt p (by omega)), Nat.div_add_mod]
  simp [hp]

/-- Bit `j` of value `n` stands at stream position `n*k + j`. -/
theorem packedBit_at (k : Nat) (v : List Nat) {n j : Nat} (hn : n < v.length) (hj : j < k) :
    packedBit k v (n * k + j) = v[n].testBit (k - 1 - j) := by
  have h1 : (n * k + j) / k = n := by
    rw [Nat.mul_comm, Nat.mul_add_div (by omega), Nat.div_eq_of_lt hj, Nat.add_zero]
  have h2 : (n * k + j) % k = j := by rw [Nat.mul_comm, Nat.mul_add_mod, Nat.mod_eq_of_lt hj]
  have h3 : n * k + j < v.length * k := by
    have := Nat.mul_le_mul_right k (show n + 1 ≤ v.length from hn)
    rw [Nat.add_mul] at this; omega
  simp [packedBit, h1, h2, h3, hn]

theorem streamBit_congr {y z : Nat → Byte} {n : Nat} (h : ∀ a < n, y a = z a) (p : Nat) :
    streamBit y n p = streamBit z n p := by
  unfold streamBit
  by_cases hp : p < 8 * n
  · rw [h (p / 8) (by omega)]
  · simp [hp]

/-- A byte below the packed length, after `pack`. -/
theorem boutByte_pack (k : Nat) (v : List Nat) {K : Type} (s : State K) (a : Nat) :
    (pack k v s).boutByte a =
      if a < ceilDiv (v.length * k) 8 then packedByte k v a else s.boutByte a := by
  unfold State.boutByte pack
  simp only [Memory.read_fill]
  split <;> simp

end Sys2Proof.Machine
end

