-- ==== Sys2Proof/Laws/Command.lean ====
section
/-! SUPPORT. What a command can do: it answers a next state, which is fault entry if a check fails and its
effect with PC advanced if none does. -/

namespace Sys2Proof.Machine

@[simp] theorem firstFault_nil : firstFault [] = none := rfl

@[simp] theorem firstFault_cons (c : Bool) (f : CmdFault) (rest : List (Bool × CmdFault)) :
    firstFault ((c, f) :: rest) = if c then some f else firstFault rest := rfl

theorem firstFault_eq_none_iff (l : List (Bool × CmdFault)) :
    firstFault l = none ↔ ∀ p ∈ l, p.1 = false := by
  induction l with
  | nil => simp
  | cons p l ih => obtain ⟨c, f⟩ := p; cases c <;> simp [ih]

theorem command_of_passes {K : Type} {s : State K} {checks : List (Bool × CmdFault)} (effect : State K)
    (h : firstFault checks = none) : command s checks effect = .next (advance effect) := by
  simp [command, h]

theorem command_of_fails {K : Type} {s : State K} {checks : List (Bool × CmdFault)} (effect : State K) {f : CmdFault}
    (h : firstFault checks = some f) : command s checks effect = .next (raise f s) := by
  simp [command, h]

/-- All that a command can answer. -/
theorem command_cases {K : Type} {s t : State K} {checks : List (Bool × CmdFault)} {effect : State K}
    (h : command s checks effect = .next t) :
    (∃ f, firstFault checks = some f ∧ t = raise f s) ∨
      (firstFault checks = none ∧ t = advance effect) := by
  simp only [command, Host.Outcome.next.injEq] at h
  cases hf : firstFault checks with
  | none => exact .inr ⟨rfl, by simp [← h, hf]⟩
  | some f => exact .inl ⟨f, rfl, by simp [← h, hf]⟩

/-- Every command but HALT is `command` with its checks and its effect: the one case analysis over all
commands that later proofs cite. -/
theorem exec_shape (i : Instr) (s : State) :
    (i = .halt ∧ exec i s = .next { s with run := .done }) ∨
      (i ≠ .halt ∧ ∃ checks effect, exec i s = command s checks effect) := by
  cases i
  case halt => exact .inl ⟨rfl, rfl⟩
  all_goals exact .inr ⟨nofun, _, _, rfl⟩

/-- No command stops the model. -/
theorem exec_answers_next (i : Instr) (s : State) : ∃ t, exec i s = .next t := by
  rcases exec_shape i s with ⟨-, h⟩ | ⟨-, c, e, h⟩
  · exact ⟨_, h⟩
  · exact ⟨_, h.trans rfl⟩

end Sys2Proof.Machine
end

