-- ==== Sys2Proof/Laws/Encoding.lean ====
section
/-! SUPPORT. The fields of a packed word, the codes of the operands, and the rows of the opcode table. -/

namespace Sys2Proof

theorem toNat_append_eq {m n : Nat} (x : BitVec m) (y : BitVec n) :
    (x ++ y).toNat = x.toNat * 2 ^ n + y.toNat := by
  rw [BitVec.toNat_append, ← Nat.shiftLeft_add_eq_or_of_lt y.isLt, Nat.shiftLeft_eq]

/-- A packed word as a number. -/
theorem toNat_packWord (op : BitVec 8) (bd bs : BitVec 2) (fl : BitVec 4) (imm : BitVec 16) :
    (packWord op bd bs fl imm).toNat =
      op.toNat * 2 ^ 24 + bd.toNat * 2 ^ 22 + bs.toNat * 2 ^ 20 + fl.toNat * 2 ^ 16 + imm.toNat := by
  unfold packWord
  simp only [toNat_append_eq]
  omega

theorem toNat_field (w : Word) (start len : Nat) :
    (w.extractLsb' start len).toNat = w.toNat / 2 ^ start % 2 ^ len := by
  rw [BitVec.extractLsb'_toNat, Nat.shiftRight_eq_div_pow]

section
variable (op : BitVec 8) (bd bs : BitVec 2) (fl : BitVec 4) (imm : BitVec 16)

@[simp] theorem opField_packWord : opField (packWord op bd bs fl imm) = op := by
  apply BitVec.eq_of_toNat_eq
  rw [opField, toNat_field, toNat_packWord]
  omega

@[simp] theorem bdField_packWord : bdField (packWord op bd bs fl imm) = bd := by
  apply BitVec.eq_of_toNat_eq
  rw [bdField, toNat_field, toNat_packWord]
  omega

@[simp] theorem bsField_packWord : bsField (packWord op bd bs fl imm) = bs := by
  apply BitVec.eq_of_toNat_eq
  rw [bsField, toNat_field, toNat_packWord]
  omega

@[simp] theorem flField_packWord : flField (packWord op bd bs fl imm) = fl := by
  apply BitVec.eq_of_toNat_eq
  rw [flField, toNat_field, toNat_packWord]
  omega

@[simp] theorem immField_packWord : immField (packWord op bd bs fl imm) = imm := by
  apply BitVec.eq_of_toNat_eq
  rw [immField, toNat_field, toNat_packWord]
  omega

end

/-- A word is the packing of its five fields. -/
theorem packWord_fields (w : Word) :
    packWord (opField w) (bdField w) (bsField w) (flField w) (immField w) = w := by
  apply BitVec.eq_of_toNat_eq
  rw [toNat_packWord, opField, bdField, bsField, flField, immField]
  simp only [toNat_field]
  omega

theorem field_and (w w' : Word) (start len : Nat) :
    (w &&& w').extractLsb' start len = w.extractLsb' start len &&& w'.extractLsb' start len := by
  ext i hi
  simp

/-- A mask acts on each field. -/
theorem packWord_and (op op' : BitVec 8) (bd bd' bs bs' : BitVec 2) (fl fl' : BitVec 4)
    (imm imm' : BitVec 16) :
    packWord op bd bs fl imm &&& packWord op' bd' bs' fl' imm' =
      packWord (op &&& op') (bd &&& bd') (bs &&& bs') (fl &&& fl') (imm &&& imm') := by
  rw [← packWord_fields (packWord op bd bs fl imm &&& packWord op' bd' bs' fl' imm')]
  have f := field_and (packWord op bd bs fl imm) (packWord op' bd' bs' fl' imm')
  congr 1
  · exact (f 24 8).trans (congrArg₂ _ (opField_packWord ..) (opField_packWord ..))
  · exact (f 22 2).trans (congrArg₂ _ (bdField_packWord ..) (bdField_packWord ..))
  · exact (f 20 2).trans (congrArg₂ _ (bsField_packWord ..) (bsField_packWord ..))
  · exact (f 16 4).trans (congrArg₂ _ (flField_packWord ..) (flField_packWord ..))
  · exact (f 0 16).trans (congrArg₂ _ (immField_packWord ..) (immField_packWord ..))

@[simp] theorem orderOfCode_code (o : Order) : orderOfCode o.code = o := by cases o <;> rfl

@[simp] theorem code_orderOfCode (c : BitVec 2) : (orderOfCode c).code = c := by
  revert c; decide

@[simp] theorem bufOfCode_bufCode (b : BufId) : bufOfCode (bufCode b) = b := by
  revert b; decide

@[simp] theorem bufCode_bufOfCode (c : BitVec 2) : bufCode (bufOfCode c) = c := by
  revert c; decide

/-- The order operand is the low two bits of the immediate. -/
theorem orderOperand_eq (w : Word) : orderOperand w = orderOfCode ((immField w).setWidth 2) := by
  unfold orderOperand
  congr 1
  apply BitVec.eq_of_toNat_eq
  rw [toNat_field, BitVec.toNat_setWidth, immField, toNat_field]
  omega

@[simp] theorem orderOperand_packWord (op : BitVec 8) (bd bs : BitVec 2) (fl : BitVec 4) (o : Order) :
    orderOperand (packWord op bd bs fl (o.code.setWidth 16)) = o := by
  rw [orderOperand_eq, immField_packWord]
  cases o <;> rfl

/-- A row is found by its own `op`, so no two rows share one. -/
@[simp] theorem opcodeOf_code (c : Opcode) : opcodeOf c.code = some c := by cases c <;> rfl

theorem code_of_opcodeOf {op : BitVec 8} {c : Opcode} (h : opcodeOf op = some c) : c.code = op := by
  have := List.find?_some h
  simpa using this

end Sys2Proof
end

