-- ==== Sys2Proof/Laws/Host.lean ====
section
/-! SUPPORT. All that a move of the host can do, said once. -/

namespace Sys2Proof.Machine

theorem hostMove_reset (s : State) : hostMove .reset s = .next (hostReset s) := by
  unfold hostMove; split <;> rfl

/-- What a write to CTRL is. -/
theorem writeCtrl_cases (w : Word) (s : State) :
    (w = 2 ∧ writeCtrl w s = hostReset s) ∨ (w = 1 ∧ writeCtrl w s = hostStart s) ∨
      (w ≠ 1 ∧ w ≠ 2 ∧ writeCtrl w s = s) := by
  unfold writeCtrl
  by_cases h1 : w = 1
  · subst h1; exact .inr (.inl ⟨rfl, rfl⟩)
  · by_cases h2 : w = 2
    · subst h2; exact .inl ⟨rfl, rfl⟩
    · exact .inr (.inr ⟨h1, h2, by simp only [if_neg h1, if_neg h2]⟩)

/-- A memory write of the host is inside the space. -/
theorem hostWriteMem_next {sp : Space} {a : Nat} {s t u : State}
    (h : hostWriteMem sp a s t = .next u) : a < spaceSize s.params sp ∧ u = t := by
  unfold hostWriteMem at h
  by_cases ha : spaceSize s.params sp ≤ a
  · rw [if_pos ha] at h; cases h
  · rw [if_neg ha] at h; cases h; exact ⟨by omega, rfl⟩

/-- A host write of an element or of a data register, made while the core is not running. -/
inductive HostWrites (s : State) : HostAction → State → Prop
  | cm {a : Nat} (w : Word) (h : a < s.params.cmSize) :
      HostWrites s (.writeCm a w) { s with cm := s.cm.write a w }
  | bin {a : Nat} (b : Byte) (h : a < s.params.bytesMax) :
      HostWrites s (.writeBin a b) { s with bin := s.bin.write a b }
  | gt {a : Nat} (p : Point) (h : a < 64) :
      HostWrites s (.writeGt a p) { s with gt := s.gt.write a p }
  | binLen (w : Word) (h : w.toNat ≤ s.params.bytesMax) :
      HostWrites s (.writeReg 0x05 (.u32 w)) { s with binLen := w.toNat }
  | di (x : QNum) : HostWrites s (.writeReg 0x10 (.num x)) { s with di := x }
  | dq (x : QNum) : HostWrites s (.writeReg 0x11 (.num x)) { s with dq := x }

/-- A move of the host is RESET, START, no change, or one write while the core is not running. -/
theorem hostMove_cases {h : HostAction} {s t : State} (hm : hostMove h s = .next t) :
    (h = .reset ∧ t = hostReset s) ∨ (h = .start ∧ t = hostStart s) ∨ t = s ∨
      (s.run ≠ .running ∧ HostWrites s h t) := by
  have ctrl : ∀ w : Word, h = .writeReg 0x1F (.u32 w) → t = writeCtrl w s →
      (h = .reset ∧ t = hostReset s) ∨ (h = .start ∧ t = hostStart s) ∨ t = s := by
    rintro w rfl rfl
    rcases writeCtrl_cases w s with ⟨rfl, e⟩ | ⟨rfl, e⟩ | ⟨-, -, e⟩
    · exact .inl ⟨rfl, e⟩
    · exact .inr (.inl ⟨rfl, e⟩)
    · exact .inr (.inr e)
  have weaken {A B C D : Prop} : A ∨ B ∨ C → A ∨ B ∨ C ∨ D := by tauto
  unfold hostMove at hm
  split at hm
  · unfold hostWriteDuringRun at hm
    split at hm <;> cases hm
    exact weaken (ctrl _ rfl rfl)
  · rename_i hr
    cases h with
    | writeCm a w =>
      obtain ⟨ha, rfl⟩ := hostWriteMem_next hm
      exact .inr (.inr (.inr ⟨hr, .cm w ha⟩))
    | writeBin a b =>
      obtain ⟨ha, rfl⟩ := hostWriteMem_next hm
      exact .inr (.inr (.inr ⟨hr, .bin b ha⟩))
    | writeGt a p =>
      obtain ⟨ha, rfl⟩ := hostWriteMem_next hm
      exact .inr (.inr (.inr ⟨hr, .gt p ha⟩))
    | writeOther sp a v => cases hm; exact .inr (.inr (.inl rfl))
    | writeReg n v =>
      simp only [hostWrite] at hm
      unfold hostWriteReg at hm
      split at hm <;> cases hm
      · unfold writeBinLen
        split
        · exact .inr (.inr (.inl rfl))
        · exact .inr (.inr (.inr ⟨hr, .binLen _ (by omega)⟩))
      · exact .inr (.inr (.inr ⟨hr, .di _⟩))
      · exact .inr (.inr (.inr ⟨hr, .dq _⟩))
      · exact weaken (ctrl _ rfl rfl)
      · exact .inr (.inr (.inl rfl))

end Sys2Proof.Machine
end

