-- ==== Sys2Proof/Laws/Noise.lean ====
section
/-! SUPPORT. The noise source: what a regeneration writes, and what a sequence of draws hands out. -/

namespace Sys2Proof.Machine

variable {K : Type} [Inhabited K]

/-- An answer fixed beforehand is the one the oracle gives, unless sigma is 0. -/
theorem noiseGen_of_answer [Field K] [LinearOrder K] {s : State K} {sigma : K} (h : sigma ≠ 0) {answer : List K}
    {rest : List (List K)} (ho : s.oracle = answer :: rest) {i : Nat} {x : K}
    (hx : answer[i]? = some x) : s.noiseGen sigma i = x := by
  simp [State.noiseGen, State.oracleValue, h, ho, hx, List.getD_eq_getElem?_getD]

/-- The one law of the oracle (44_channel.md R141). -/
@[simp] theorem noiseGen_zero [Field K] [LinearOrder K] (s : State K) (i : Nat) : s.noiseGen 0 i = 0 := by simp [State.noiseGen]

/-- The one law of `Log10` (00_scope.md R5). -/
@[simp] theorem log10_one [Field K] [LinearOrder K] : log10 (1 : K) = 0 := by simp [log10]

theorem nz_read_regenerate [Field K] [LinearOrder K] (sigma : K) (s : State K) {t : Nat} (h : t < s.params.noiseLen) :
    (regenerate sigma s).nz.read t = some (s.noiseGen sigma t) := by
  simp [regenerate, Memory.read_fill, h]

/-- A draw moves the cursor and nothing else. -/
theorem draws_state (n : Nat) (s : State K) (h : s.cursor < s.params.noiseLen) :
    (draws n s).2 = { s with cursor := (s.cursor + n) % s.params.noiseLen } := by
  induction n generalizing s with
  | zero => simp [draws, Nat.mod_eq_of_lt h]
  | succ n ih =>
    rw [draws, ih]
    · simp [draw, Nat.mod_add_mod]; congr 1; omega
    · exact Nat.mod_lt _ (by omega)

/-- However the cursor stands, draws change nothing but the cursor. -/
theorem draws_frame (n : Nat) (s : State K) :
    (draws n s).2 = { s with cursor := (draws n s).2.cursor } := by
  induction n generalizing s with
  | zero => rfl
  | succ n ih => rw [draws, ih]; rfl

/-! Draws change no other field. -/

@[simp] theorem draws_params (n : Nat) (s : State K) : (draws n s).2.params = s.params := by rw [draws_frame]
@[simp] theorem draws_pc (n : Nat) (s : State K) : (draws n s).2.pc = s.pc := by rw [draws_frame]
@[simp] theorem draws_run (n : Nat) (s : State K) : (draws n s).2.run = s.run := by rw [draws_frame]
@[simp] theorem draws_err (n : Nat) (s : State K) : (draws n s).2.err = s.err := by rw [draws_frame]
@[simp] theorem draws_epc (n : Nat) (s : State K) : (draws n s).2.epc = s.epc := by rw [draws_frame]
@[simp] theorem draws_mapValid (n : Nat) (s : State K) : (draws n s).2.mapValid = s.mapValid := by rw [draws_frame]
@[simp] theorem draws_order (n : Nat) (s : State K) : (draws n s).2.order = s.order := by rw [draws_frame]
@[simp] theorem draws_custom (n : Nat) (s : State K) : (draws n s).2.custom = s.custom := by rw [draws_frame]
@[simp] theorem draws_ct (n : Nat) (s : State K) : (draws n s).2.ct = s.ct := by rw [draws_frame]
@[simp] theorem draws_gt (n : Nat) (s : State K) : (draws n s).2.gt = s.gt := by rw [draws_frame]
@[simp] theorem draws_modBound (n : Nat) (s : State K) : (draws n s).2.modBound = s.modBound := by rw [draws_frame]
@[simp] theorem draws_demBound (n : Nat) (s : State K) : (draws n s).2.demBound = s.demBound := by rw [draws_frame]
@[simp] theorem draws_bufs (n : Nat) (s : State K) : (draws n s).2.bufs = s.bufs := by rw [draws_frame]
@[simp] theorem draws_bin (n : Nat) (s : State K) : (draws n s).2.bin = s.bin := by rw [draws_frame]
@[simp] theorem draws_binLen (n : Nat) (s : State K) : (draws n s).2.binLen = s.binLen := by rw [draws_frame]
@[simp] theorem draws_bout (n : Nat) (s : State K) : (draws n s).2.bout = s.bout := by rw [draws_frame]
@[simp] theorem draws_boutLen (n : Nat) (s : State K) : (draws n s).2.boutLen = s.boutLen := by rw [draws_frame]
@[simp] theorem draws_llr (n : Nat) (s : State K) : (draws n s).2.llr = s.llr := by rw [draws_frame]
@[simp] theorem draws_llrLen (n : Nat) (s : State K) : (draws n s).2.llrLen = s.llrLen := by rw [draws_frame]
@[simp] theorem draws_chValid (n : Nat) (s : State K) : (draws n s).2.chValid = s.chValid := by rw [draws_frame]
@[simp] theorem draws_sigma (n : Nat) (s : State K) : (draws n s).2.sigma = s.sigma := by rw [draws_frame]
@[simp] theorem draws_nz (n : Nat) (s : State K) : (draws n s).2.nz = s.nz := by rw [draws_frame]
@[simp] theorem draws_regens (n : Nat) (s : State K) : (draws n s).2.regens = s.regens := by rw [draws_frame]
@[simp] theorem draws_oracle (n : Nat) (s : State K) : (draws n s).2.oracle = s.oracle := by rw [draws_frame]
@[simp] theorem draws_di (n : Nat) (s : State K) : (draws n s).2.di = s.di := by rw [draws_frame]
@[simp] theorem draws_dq (n : Nat) (s : State K) : (draws n s).2.dq = s.dq := by rw [draws_frame]
@[simp] theorem draws_res (n : Nat) (s : State K) : (draws n s).2.res = s.res := by rw [draws_frame]
@[simp] theorem draws_qr (n : Nat) (s : State K) : (draws n s).2.qr = s.qr := by rw [draws_frame]
@[simp] theorem draws_cm (n : Nat) (s : State K) : (draws n s).2.cm = s.cm := by rw [draws_frame]
@[simp] theorem draws_era (n : Nat) (s : State K) : (draws n s).2.era = s.era := by rw [draws_frame]
@[simp] theorem draws_fresh (n : Nat) (s : State K) : (draws n s).2.fresh = s.fresh := by rw [draws_frame]
@[simp] theorem draws_buf (n : Nat) (s : State K) (b : BufId) : (draws n s).2.buf b = s.buf b := by
  rw [draws_frame]; rfl

@[simp] theorem draws_length (n : Nat) (s : State K) : (draws n s).1.length = n := by
  induction n generalizing s with
  | zero => rfl
  | succ n ih => simp [draws, ih]

/-- Draw number `t` hands out `NZ[(CURSOR + t) mod L]`. -/
theorem draws_value {n : Nat} {s : State K} (h : s.cursor < s.params.noiseLen) {t : Nat} (ht : t < n) :
    (draws n s).1[t]? = some (s.nzValue ((s.cursor + t) % s.params.noiseLen)) := by
  induction n generalizing s t with
  | zero => omega
  | succ n ih =>
    cases t with
    | zero => simp [draws, Nat.mod_eq_of_lt h]
    | succ t =>
      have hc : (draw s).2.cursor < (draw s).2.params.noiseLen := by
        simpa using Nat.mod_lt _ (by omega)
      simp only [draws, List.getElem?_cons_succ]
      rw [ih hc (by omega)]
      have e : (draw s).2.nzValue = s.nzValue := rfl
      simp only [draw_cursor, draw_params, e, Nat.mod_add_mod]
      congr 3; omega

/-! What a transmit leaves alone. -/

@[simp] theorem transmit_params [Field K] [LinearOrder K] (bd bs : BufId) (s : State K) : (transmit bd bs s).params = s.params := by simp [transmit]
@[simp] theorem transmit_pc [Field K] [LinearOrder K] (bd bs : BufId) (s : State K) : (transmit bd bs s).pc = s.pc := by simp [transmit]
@[simp] theorem transmit_run [Field K] [LinearOrder K] (bd bs : BufId) (s : State K) : (transmit bd bs s).run = s.run := by simp [transmit]
@[simp] theorem transmit_err [Field K] [LinearOrder K] (bd bs : BufId) (s : State K) : (transmit bd bs s).err = s.err := by simp [transmit]
@[simp] theorem transmit_epc [Field K] [LinearOrder K] (bd bs : BufId) (s : State K) : (transmit bd bs s).epc = s.epc := by simp [transmit]
@[simp] theorem transmit_mapValid [Field K] [LinearOrder K] (bd bs : BufId) (s : State K) : (transmit bd bs s).mapValid = s.mapValid := by simp [transmit]
@[simp] theorem transmit_order [Field K] [LinearOrder K] (bd bs : BufId) (s : State K) : (transmit bd bs s).order = s.order := by simp [transmit]
@[simp] theorem transmit_custom [Field K] [LinearOrder K] (bd bs : BufId) (s : State K) : (transmit bd bs s).custom = s.custom := by simp [transmit]
@[simp] theorem transmit_ct [Field K] [LinearOrder K] (bd bs : BufId) (s : State K) : (transmit bd bs s).ct = s.ct := by simp [transmit]
@[simp] theorem transmit_gt [Field K] [LinearOrder K] (bd bs : BufId) (s : State K) : (transmit bd bs s).gt = s.gt := by simp [transmit]
@[simp] theorem transmit_modBound [Field K] [LinearOrder K] (bd bs : BufId) (s : State K) : (transmit bd bs s).modBound = s.modBound := by simp [transmit]
@[simp] theorem transmit_demBound [Field K] [LinearOrder K] (bd bs : BufId) (s : State K) : (transmit bd bs s).demBound = s.demBound := by simp [transmit]
@[simp] theorem transmit_bin [Field K] [LinearOrder K] (bd bs : BufId) (s : State K) : (transmit bd bs s).bin = s.bin := by simp [transmit]
@[simp] theorem transmit_binLen [Field K] [LinearOrder K] (bd bs : BufId) (s : State K) : (transmit bd bs s).binLen = s.binLen := by simp [transmit]
@[simp] theorem transmit_bout [Field K] [LinearOrder K] (bd bs : BufId) (s : State K) : (transmit bd bs s).bout = s.bout := by simp [transmit]
@[simp] theorem transmit_boutLen [Field K] [LinearOrder K] (bd bs : BufId) (s : State K) : (transmit bd bs s).boutLen = s.boutLen := by simp [transmit]
@[simp] theorem transmit_llr [Field K] [LinearOrder K] (bd bs : BufId) (s : State K) : (transmit bd bs s).llr = s.llr := by simp [transmit]
@[simp] theorem transmit_llrLen [Field K] [LinearOrder K] (bd bs : BufId) (s : State K) : (transmit bd bs s).llrLen = s.llrLen := by simp [transmit]
@[simp] theorem transmit_chValid [Field K] [LinearOrder K] (bd bs : BufId) (s : State K) : (transmit bd bs s).chValid = s.chValid := by simp [transmit]
@[simp] theorem transmit_sigma [Field K] [LinearOrder K] (bd bs : BufId) (s : State K) : (transmit bd bs s).sigma = s.sigma := by simp [transmit]
@[simp] theorem transmit_nz [Field K] [LinearOrder K] (bd bs : BufId) (s : State K) : (transmit bd bs s).nz = s.nz := by simp [transmit]
@[simp] theorem transmit_regens [Field K] [LinearOrder K] (bd bs : BufId) (s : State K) : (transmit bd bs s).regens = s.regens := by simp [transmit]
@[simp] theorem transmit_oracle [Field K] [LinearOrder K] (bd bs : BufId) (s : State K) : (transmit bd bs s).oracle = s.oracle := by simp [transmit]
@[simp] theorem transmit_di [Field K] [LinearOrder K] (bd bs : BufId) (s : State K) : (transmit bd bs s).di = s.di := by simp [transmit]
@[simp] theorem transmit_dq [Field K] [LinearOrder K] (bd bs : BufId) (s : State K) : (transmit bd bs s).dq = s.dq := by simp [transmit]
@[simp] theorem transmit_res [Field K] [LinearOrder K] (bd bs : BufId) (s : State K) : (transmit bd bs s).res = s.res := by simp [transmit]
@[simp] theorem transmit_qr [Field K] [LinearOrder K] (bd bs : BufId) (s : State K) : (transmit bd bs s).qr = s.qr := by simp [transmit]
@[simp] theorem transmit_cm [Field K] [LinearOrder K] (bd bs : BufId) (s : State K) : (transmit bd bs s).cm = s.cm := by simp [transmit]
@[simp] theorem transmit_era [Field K] [LinearOrder K] (bd bs : BufId) (s : State K) : (transmit bd bs s).era = s.era := by simp [transmit]
@[simp] theorem transmit_fresh [Field K] [LinearOrder K] (bd bs : BufId) (s : State K) : (transmit bd bs s).fresh = s.fresh := by simp [transmit]

end Sys2Proof.Machine
end

