-- ==== Sys2Proof/Laws/PerInstr.lean ====
section
/-! SUPPORT. Per-command families: one lemma for each constructor of Instr. -/

namespace Sys2Proof

/-- The row of the opcode table a command belongs to. -/
def Instr.opcode : Instr → Opcode
  | .mapInit _ => .mapInit
  | .mapInstall => .mapInstall
  | .mapOrder => .mapOrder
  | .mapBps => .mapBps
  | .mapGet _ => .mapGet
  | .bufMake _ _ => .bufMake
  | .bufStore _ _ => .bufStore
  | .bufLoad _ _ => .bufLoad
  | .bufCopy _ _ => .bufCopy
  | .modBind _ => .modBind
  | .modulate _ => .modulate
  | .demBind _ => .demBind
  | .demod _ => .demod
  | .demodLlr _ _ => .demodLlr
  | .llrBit _ _ _ => .llrBit
  | .chSet => .chSet
  | .chTxs => .chTxs
  | .chTxb _ _ => .chTxb
  | .chQ => .chQ
  | .chLogq => .chLogq
  | .halt => .halt

/-- The family RowOfEncoding: the word of a command has the `op` of its row, matches the row's mask, and
gives the command back through the row's operand columns (30_encoding.md R63). -/
def Laws.RowOfEncoding.Statement (i : Instr) : Prop :=
  opField (encode i) = i.opcode.code ∧
  encode i &&& i.opcode.maskWord = i.opcode.matchWord ∧
  i.opcode.command (encode i) = i

namespace Laws.RowOfEncoding

theorem mapInit (o : Order) : Statement (.mapInit o) := by
  refine ⟨by simp [encode, Instr.opcode, Opcode.code], ?_, by simp [encode, Instr.opcode, Opcode.command]⟩
  cases o <;> decide

theorem mapInstall : Statement .mapInstall := ⟨by decide, by decide, rfl⟩
theorem mapOrder : Statement .mapOrder := ⟨by decide, by decide, rfl⟩
theorem mapBps : Statement .mapBps := ⟨by decide, by decide, rfl⟩

theorem mapGet (idx : BitVec 16) : Statement (.mapGet idx) := by
  refine ⟨by simp [encode, Instr.opcode, Opcode.code], ?_, by simp [encode, Instr.opcode, Opcode.command]⟩
  rw [encode, Instr.opcode, show Opcode.maskWord .mapGet = packWord 0xff 3 3 0xf 0x0 by decide, packWord_and,
    show Opcode.matchWord .mapGet = packWord 0x5 0 0 0 0 by decide]
  simp

theorem bufMake (bd : BufId) (len : BitVec 16) : Statement (.bufMake bd len) := by
  refine ⟨by simp [encode, Instr.opcode, Opcode.code], ?_, by simp [encode, Instr.opcode, Opcode.command]⟩
  rw [encode, Instr.opcode, show Opcode.maskWord .bufMake = packWord 0xff 0 3 0xf 0x0 by decide, packWord_and,
    show Opcode.matchWord .bufMake = packWord 0x10 0 0 0 0 by decide]
  simp

theorem bufStore (bd : BufId) (idx : BitVec 16) : Statement (.bufStore bd idx) := by
  refine ⟨by simp [encode, Instr.opcode, Opcode.code], ?_, by simp [encode, Instr.opcode, Opcode.command]⟩
  rw [encode, Instr.opcode, show Opcode.maskWord .bufStore = packWord 0xff 0 3 0xf 0x0 by decide, packWord_and,
    show Opcode.matchWord .bufStore = packWord 0x11 0 0 0 0 by decide]
  simp

theorem bufLoad (bs : BufId) (idx : BitVec 16) : Statement (.bufLoad bs idx) := by
  refine ⟨by simp [encode, Instr.opcode, Opcode.code], ?_, by simp [encode, Instr.opcode, Opcode.command]⟩
  rw [encode, Instr.opcode, show Opcode.maskWord .bufLoad = packWord 0xff 3 0 0xf 0x0 by decide, packWord_and,
    show Opcode.matchWord .bufLoad = packWord 0x12 0 0 0 0 by decide]
  simp

theorem bufCopy (bd bs : BufId) : Statement (.bufCopy bd bs) := by
  refine ⟨by simp [encode, Instr.opcode, Opcode.code], ?_, by simp [encode, Instr.opcode, Opcode.command]⟩
  rw [encode, Instr.opcode, show Opcode.maskWord .bufCopy = packWord 0xff 0 0 0xf 0xffff by decide, packWord_and,
    show Opcode.matchWord .bufCopy = packWord 0x13 0 0 0 0 by decide]
  simp

theorem modBind (e : Order) : Statement (.modBind e) := by
  refine ⟨by simp [encode, Instr.opcode, Opcode.code], ?_, by simp [encode, Instr.opcode, Opcode.command]⟩
  cases e <;> decide

theorem modulate (bd : BufId) : Statement (.modulate bd) := by
  refine ⟨by simp [encode, Instr.opcode, Opcode.code], ?_, by simp [encode, Instr.opcode, Opcode.command]⟩
  rw [encode, Instr.opcode, show Opcode.maskWord .modulate = packWord 0xff 0 3 0xf 0xffff by decide, packWord_and,
    show Opcode.matchWord .modulate = packWord 0x21 0 0 0 0 by decide]
  simp

theorem demBind (e : Order) : Statement (.demBind e) := by
  refine ⟨by simp [encode, Instr.opcode, Opcode.code], ?_, by simp [encode, Instr.opcode, Opcode.command]⟩
  cases e <;> decide

theorem demod (bs : BufId) : Statement (.demod bs) := by
  refine ⟨by simp [encode, Instr.opcode, Opcode.code], ?_, by simp [encode, Instr.opcode, Opcode.command]⟩
  rw [encode, Instr.opcode, show Opcode.maskWord .demod = packWord 0xff 3 0 0xf 0xffff by decide, packWord_and,
    show Opcode.matchWord .demod = packWord 0x31 0 0 0 0 by decide]
  simp

theorem demodLlr (bs : BufId) (h : Bool) : Statement (.demodLlr bs h) := by
  refine ⟨by simp [encode, Instr.opcode, Opcode.code], ?_, by cases h <;> simp [encode, Instr.opcode, Opcode.command]⟩
  rw [encode, Instr.opcode, show Opcode.maskWord .demodLlr = packWord 0xff 3 0 0xe 0xffff by decide, packWord_and,
    show Opcode.matchWord .demodLlr = packWord 0x32 0 0 0 0 by decide]
  cases h <;> simp

theorem llrBit (bs : BufId) (idx : BitVec 16) (pos : BitVec 4) : Statement (.llrBit bs idx pos) := by
  refine ⟨by simp [encode, Instr.opcode, Opcode.code], ?_, by simp [encode, Instr.opcode, Opcode.command]⟩
  rw [encode, Instr.opcode, show Opcode.maskWord .llrBit = packWord 0xff 3 0 0x0 0x0 by decide, packWord_and,
    show Opcode.matchWord .llrBit = packWord 0x33 0 0 0 0 by decide]
  simp

theorem chSet : Statement .chSet := ⟨by decide, by decide, rfl⟩
theorem chTxs : Statement .chTxs := ⟨by decide, by decide, rfl⟩

theorem chTxb (bd bs : BufId) : Statement (.chTxb bd bs) := by
  refine ⟨by simp [encode, Instr.opcode, Opcode.code], ?_, by simp [encode, Instr.opcode, Opcode.command]⟩
  rw [encode, Instr.opcode, show Opcode.maskWord .chTxb = packWord 0xff 0 0 0xf 0xffff by decide, packWord_and,
    show Opcode.matchWord .chTxb = packWord 0x42 0 0 0 0 by decide]
  simp

theorem chQ : Statement .chQ := ⟨by decide, by decide, rfl⟩
theorem chLogq : Statement .chLogq := ⟨by decide, by decide, rfl⟩
theorem halt : Statement .halt := ⟨by decide, by decide, rfl⟩

/-- Every command. -/
theorem holds (i : Instr) : Statement i := by
  cases i
  case mapInit o => exact mapInit o
  case mapInstall => exact mapInstall
  case mapOrder => exact mapOrder
  case mapBps => exact mapBps
  case mapGet idx => exact mapGet idx
  case bufMake bd len => exact bufMake bd len
  case bufStore bd idx => exact bufStore bd idx
  case bufLoad bs idx => exact bufLoad bs idx
  case bufCopy bd bs => exact bufCopy bd bs
  case modBind e => exact modBind e
  case modulate bd => exact modulate bd
  case demBind e => exact demBind e
  case demod bs => exact demod bs
  case demodLlr bs h => exact demodLlr bs h
  case llrBit bs idx pos => exact llrBit bs idx pos
  case chSet => exact chSet
  case chTxs => exact chTxs
  case chTxb bd bs => exact chTxb bd bs
  case chQ => exact chQ
  case chLogq => exact chLogq
  case halt => exact halt

end Laws.RowOfEncoding
end Sys2Proof
end

