-- ==== Sys2Proof/Laws/Step.lean ====
section
/-! SUPPORT. All that a step can do, said once, and what every command does to the control registers. -/

namespace Sys2Proof.Machine

/-- A step outside RUNNING keeps the state; inside, it raises Illegal or executes the fetched command. -/
theorem step_cases {s t : State} (h : step s = .next t) :
    (s.run ≠ .running ∧ t = s) ∨ (s.run = .running ∧ t = raise .illegal s) ∨
      (s.run = .running ∧ s.pc < s.params.cmSize ∧ ∃ i, fetch s = .ok i ∧ exec i s = .next t) := by
  unfold step at h
  split at h
  · rename_i hr
    split at h
    · cases h; exact .inr (.inl ⟨hr, rfl⟩)
    · rename_i hp
      split at h
      · rename_i i hi
        exact .inr (.inr ⟨hr, by simpa [pastEnd] using hp, i, hi, h⟩)
      · cases h; exact .inr (.inl ⟨hr, rfl⟩)
  all_goals cases h; exact .inl ⟨by simp [*], rfl⟩

/-- A step always answers a next state. -/
theorem step_answers_next (s : State) : ∃ t, step s = .next t := by
  unfold step
  split
  · split
    · exact ⟨_, rfl⟩
    · split
      · exact exec_answers_next _ _
      · exact ⟨_, rfl⟩
  all_goals exact ⟨_, rfl⟩

/-- The control registers after a command: fault entry, HALT, or PC advanced with RUN, ERR, EPC kept. -/
theorem exec_control {i : Instr} {s t : State} (h : exec i s = .next t) :
    (∃ f, t = raise f s) ∨
      (i ≠ .halt ∧ t.run = s.run ∧ t.pc = s.pc + 1 ∧ t.err = s.err ∧ t.epc = s.epc) ∨
      (i = .halt ∧ t = { s with run := .done }) := by
  cases i
  case halt => cases h; exact .inr (.inr ⟨rfl, rfl⟩)
  all_goals
    obtain ⟨f, -, rfl⟩ | ⟨-, rfl⟩ := command_cases h
    · exact .inl ⟨f, rfl⟩
    · refine .inr (.inl ⟨nofun, ?_⟩)
      first
      | exact ⟨rfl, rfl, rfl, rfl⟩
      | (split <;> exact ⟨rfl, rfl, rfl, rfl⟩)
      | exact ⟨by simp, by simp, by simp, by simp⟩

/-- No command changes the parameters, what the host owns, or the key of the unspecified elements. -/
theorem exec_keeps_host_owned {i : Instr} {s t : State} (h : exec i s = .next t) :
    t.params = s.params ∧ t.cm = s.cm ∧ t.bin = s.bin ∧ t.binLen = s.binLen ∧ t.gt = s.gt ∧
      t.era = s.era := by
  cases i
  case halt => cases h; exact ⟨rfl, rfl, rfl, rfl, rfl, rfl⟩
  all_goals
    obtain ⟨f, -, rfl⟩ | ⟨-, rfl⟩ := command_cases h
    · exact ⟨rfl, rfl, rfl, rfl, rfl, rfl⟩
    · first
      | exact ⟨rfl, rfl, rfl, rfl, rfl, rfl⟩
      | (split <;> exact ⟨rfl, rfl, rfl, rfl, rfl, rfl⟩)
      | exact ⟨by simp, by simp, by simp, by simp, by simp, by simp⟩

end Sys2Proof.Machine
end

