-- ==== Sys2Proof/Machine/Assembly.lean ====
section
/-! DEFINITION. The assembly form of a command (30_encoding.md R67): the mnemonic, then destination,
source and other operands, separated by commas. -/

namespace Sys2Proof

/-- `QPSK`, `QAM16`, `QAM64`, and `ANY` for code 3. -/
def Order.asm : Order → String
  | .qpsk => "QPSK"
  | .qam16 => "QAM16"
  | .qam64 => "QAM64"
  | .code3 => "ANY"

/-- `B0` to `B3`. -/
def bufAsm (b : BufId) : String := "B" ++ Nat.repr b.val

/-- The line of a command. -/
def Instr.asm : Instr → String
  | .mapInit o => "MAP_INIT " ++ o.asm
  | .mapInstall => "MAP_INSTALL"
  | .mapOrder => "MAP_ORDER"
  | .mapBps => "MAP_BPS"
  | .mapGet idx => "MAP_GET " ++ Nat.repr idx.toNat
  | .bufMake bd len => "BUF_MAKE " ++ bufAsm bd ++ ", " ++ Nat.repr len.toNat
  | .bufStore bd idx => "BUF_STORE " ++ bufAsm bd ++ ", " ++ Nat.repr idx.toNat
  | .bufLoad bs idx => "BUF_LOAD " ++ bufAsm bs ++ ", " ++ Nat.repr idx.toNat
  | .bufCopy bd bs => "BUF_COPY " ++ bufAsm bd ++ ", " ++ bufAsm bs
  | .modBind e => "MOD_BIND " ++ e.asm
  | .modulate bd => "MODULATE " ++ bufAsm bd
  | .demBind e => "DEM_BIND " ++ e.asm
  | .demod bs => "DEMOD " ++ bufAsm bs
  | .demodLlr bs h => "DEMOD_LLR " ++ bufAsm bs ++ (if h then ", H" else "")
  | .llrBit bs idx pos =>
    "LLR_BIT " ++ bufAsm bs ++ ", " ++ Nat.repr idx.toNat ++ ", " ++ Nat.repr pos.toNat
  | .chSet => "CH_SET"
  | .chTxs => "CH_TXS"
  | .chTxb bd bs => "CH_TXB " ++ bufAsm bd ++ ", " ++ bufAsm bs
  | .chQ => "CH_Q"
  | .chLogq => "CH_LOGQ"
  | .halt => "HALT"

end Sys2Proof
end

