-- ==== Sys2Proof/Tests/Slice0.lean ====
section
/-! SUPPORT. The model's own tests, each against a vector or a rule of the spec named in its comment, and a
witness for the hypotheses of every statement of `Certificates/Slice0/Obligations.lean`. -/

namespace Sys2Proof.Tests

-- One theorem at a time: many kernel evaluations at once run out of threads.
set_option Elab.async false
open Sys2Proof Sys2Proof.Machine

/-! ### Small states -/

/-- Parameters inside the bounds of 00_scope.md R5; NOISE_LEN as in 95_test_vectors.md P2. -/
def params6 : Params :=
  { noiseLen := 6, capMax := 16, bytesMax := 8, cmSize := 16, sigma2Floor := 1 / 100 }

/-- After power-on. -/
def fresh0 : State := State.resetWith params6

/-- Running at PC 0. -/
def running0 : State := { fresh0 with run := .running }

/-- The state after some commands. -/
def did (cmds : List Instr) (s : State) : State :=
  match execAll cmds s with
  | .next t => t
  | .fault _ => s
  | .refused _ => s

/-- What holds of the state after one command. -/
def after (i : Instr) (s : State) (p : State → Bool) : Bool :=
  match exec i s with
  | .next t => p t
  | .fault _ => false
  | .refused _ => false

/-- What holds of the state after one step. -/
def stepped (s : State) (p : State → Bool) : Bool :=
  match step s with
  | .next t => p t
  | .fault _ => false
  | .refused _ => false

/-- A mapper of order `o`, both units bound, the input bytes placed. -/
def bound (o : Order) (bytes : List Byte) : State :=
  did [.mapInit o, .modBind .code3, .demBind .code3]
    { running0 with
      bin := (List.range bytes.length).zip bytes
      binLen := bytes.length }

/-- One sample in buffer 0, a mapper bound, a channel of the given sigma. -/
def sampled (o : Order) (x y sigma : QNum) : State :=
  { did [.bufMake 0 2, .bufStore 0 0] { bound o [] with di := x, dq := y } with
    chValid := true
    sigma := sigma }

/-- The received samples of 95_test_vectors.md P2 in buffer 1. -/
def receivedP2 : State :=
  { (bound .qam16 []).fillBuf 1 8 8
      (fun a => [-11 / 4, 9 / 4, -17 / 4, 5 / 4, -3 / 2, 3, 3 / 2, -7 / 2].getD a 0) with
    chValid := true
    sigma := 1 / 2 }

/-- A channel with the cache of 95_test_vectors.md P2. -/
def noisyP2 : State :=
  did [.chSet]
    { bound .qam16 [0x1B, 0xE4] with
      di := 1 / 2
      oracle := [[1 / 4, -1 / 2, 5 / 4, 0, -5 / 4, 1 / 2]] }

/-- The first `n` words of a buffer. -/
def words (s : State) (b : BufId) (n : Nat) : List QNum := (List.range n).map (s.sbWord b)

/-- The output bytes. -/
def output (s : State) : List Byte := (List.range s.boutLen).map s.boutByte

/-- Fault entry with code `f` at `pc`, and nothing else (60_exceptions.md R177). -/
def faultsWith (f : CmdFault) (i : Instr) (s : State) : Bool :=
  after i s (fun t => decide (t = { s with err := some f, epc := s.pc, run := .faulted }))

/-! ### WellFormed: an ill-formed command for each check, which the check refuses -/

theorem test_wf_refuses_order_three : (Instr.mapInit .code3).wf = false := by decide
theorem test_wf_refuses_same_buffer : (Instr.chTxb 2 2).wf = false := by decide
theorem test_wf_admits_bind_any : (Instr.modBind .code3).wf = true ∧ (Instr.bufCopy 1 1).wf = true := by
  decide

/-! ### Decoding: the word of every constructor, from 30_encoding.md R63 and 95_test_vectors.md 2.7, P1 to P4 -/

theorem test_decode_mapInit : decode 0x01000002 = .ok (.mapInit .qam64) := by rfl
theorem test_decode_mapInstall : decode 0x02000000 = .ok .mapInstall := by rfl
theorem test_decode_mapOrder : decode 0x03000000 = .ok .mapOrder := by rfl
theorem test_decode_mapBps : decode 0x04000000 = .ok .mapBps := by rfl
theorem test_decode_mapGet : decode 0x0500002A = .ok (.mapGet 42) := by rfl
theorem test_decode_bufMake : decode 0x10C0FFFE = .ok (.bufMake 3 65534) := by rfl
theorem test_decode_bufStore : decode 0x11800001 = .ok (.bufStore 2 1) := by rfl
theorem test_decode_bufLoad : decode 0x12300001 = .ok (.bufLoad 3 1) := by rfl
theorem test_decode_bufCopy : decode 0x13E00000 = .ok (.bufCopy 3 2) := by rfl
theorem test_decode_modBind : decode 0x20000003 = .ok (.modBind .code3) := by rfl
theorem test_decode_modulate : decode 0x21400000 = .ok (.modulate 1) := by rfl
theorem test_decode_demBind : decode 0x30000002 = .ok (.demBind .qam64) := by rfl
theorem test_decode_demod : decode 0x31100000 = .ok (.demod 1) := by rfl
theorem test_decode_demodLlr : decode 0x32110000 = .ok (.demodLlr 1 true) := by rfl
theorem test_decode_demodLlr_plain : decode 0x32100000 = .ok (.demodLlr 1 false) := by rfl
theorem test_decode_llrBit : decode 0x333F0005 = .ok (.llrBit 3 5 15) := by rfl
theorem test_decode_chSet : decode 0x40000000 = .ok .chSet := by rfl
theorem test_decode_chTxs : decode 0x41000000 = .ok .chTxs := by rfl
theorem test_decode_chTxb : decode 0x42400000 = .ok (.chTxb 1 0) := by rfl
theorem test_decode_chQ : decode 0x43000000 = .ok .chQ := by rfl
theorem test_decode_chLogq : decode 0x44000000 = .ok .chLogq := by rfl
theorem test_decode_halt : decode 0x7F000000 = .ok .halt := by rfl

/-- The illegal words of 95_test_vectors.md 2.7. -/
theorem test_decode_refuses :
    decode 0x01000003 = .error .orderThree ∧ decode 0x01000004 = .error .nonzeroUnused ∧
    decode 0x01400000 = .error .nonzeroUnused ∧ decode 0x00000000 = .error .unassignedOp ∧
    decode 0xFFFFFFFF = .error .unassignedOp ∧ decode 0x06000000 = .error .unassignedOp ∧
    decode 0x10100002 = .error .nonzeroUnused ∧ decode 0x13E00001 = .error .nonzeroUnused ∧
    decode 0x21100000 = .error .nonzeroUnused ∧ decode 0x32120000 = .error .nonzeroUnused ∧
    decode 0x42500000 = .error .sameBuffer ∧ decode 0x7F000001 = .error .nonzeroUnused :=
  ⟨rfl, rfl, rfl, rfl, rfl, rfl, rfl, rfl, rfl, rfl, rfl, rfl⟩

/-- 95_test_vectors.md P1 to P4: the assembly of some words. -/
theorem test_asm :
    (Instr.demodLlr 1 true).asm = "DEMOD_LLR B1, H" ∧ (Instr.modBind .code3).asm = "MOD_BIND ANY" ∧
    (Instr.llrBit 0 0 1).asm = "LLR_BIT B0, 0, 1" ∧ (Instr.chTxb 1 0).asm = "CH_TXB B1, B0" := by decide

/-- The placed word is what the next step runs (95_test_vectors.md (a)). -/
theorem test_placed_halt :
    stepped (fresh0.withFetchWord 32 0x7F000000) (fun t => decide (t.run = .done ∧ t.pc = 0)) = true := by
  decide +kernel

/-- The same on the machine right after power-on, whatever its parameters are. -/
theorem test_placed_after_reset :
    step (State.reset.withFetchWord 32 0x7F000000) =
      .next { State.reset.withFetchWord 32 0x7F000000 with run := .done } := by rfl

/-- 95_test_vectors.md (b): past the end of CM the step raises Illegal. -/
theorem test_past_end :
    stepped { running0 with pc := 16 }
      (fun t => decide (t.run = .faulted ∧ errCode t.err = 5 ∧ t.epc = 16 ∧ t.pc = 16)) = true := by
  decide +kernel

/-- The memory after power-on is in canonical form. -/
theorem test_reset_memory :
    fresh0.ct.wf ∧ fresh0.gt.wf ∧ fresh0.bin.wf ∧ fresh0.bout.wf ∧ fresh0.llr.wf ∧ fresh0.nz.wf ∧
      fresh0.cm.wf ∧ ∀ b, (fresh0.buf b).words.wf := by
  decide +kernel

/-! ### One command each -/

/-- 95_test_vectors.md 2.1. -/
theorem test_mapInit_qam64 :
    after (.mapInit .qam64) running0 (fun t => decide (t.ctPoint 0 = ⟨-1, -1⟩ ∧ t.ctPoint 21 = ⟨7, -7⟩ ∧
      t.ctPoint 42 = ⟨7, 7⟩ ∧ t.ctPoint 63 = ⟨-1, 1⟩)) = true := by decide +kernel

theorem test_mapInit_qam16 :
    after (.mapInit .qam16) running0 (fun t => decide (t.ctPoint 5 = ⟨3, -3⟩ ∧ t.ctPoint 9 = ⟨-3, 3⟩ ∧
      t.ctPoint 7 = ⟨-1, -3⟩ ∧ t.ctPoint 8 = ⟨-1, 3⟩ ∧ t.ctPoint 15 = ⟨-1, 1⟩)) = true := by
  decide +kernel

/-- 95_test_vectors.md P4. -/
theorem test_mapInstall :
    after .mapInstall
      { bound .qpsk [] with gt := [(0, ⟨1, 0⟩), (1, ⟨0, 1⟩), (2, ⟨-1, 0⟩), (3, ⟨0, -1⟩)] }
      (fun t => decide (t.ctPoint 0 = ⟨1, 0⟩ ∧ t.ctPoint 3 = ⟨0, -1⟩ ∧ t.custom = true ∧
        t.demBound = true)) = true := by decide +kernel

/-- 95_test_vectors.md 2.1: RES = 2, RES = 6, (DI, DQ) = (7, 7), BoundsIndex. -/
theorem test_mapOrder : after .mapOrder (bound .qam64 []) (fun t => t.res == 2) = true := by
  decide +kernel
theorem test_mapBps : after .mapBps (bound .qam64 []) (fun t => t.res == 6) = true := by
  decide +kernel
theorem test_mapGet :
    after (.mapGet 42) (bound .qam64 []) (fun t => decide (t.di = 7 ∧ t.dq = 7)) = true := by
  decide +kernel
theorem test_mapGet_bounds : faultsWith .boundsIndex (.mapGet 4) (bound .qpsk []) = true := by
  decide +kernel

/-- 95_test_vectors.md V3. -/
theorem test_bufMake_odd : faultsWith .boundsLength (.bufMake 0 7) running0 = true := by
  decide +kernel
theorem test_bufMake : after (.bufMake 0 2) running0 (fun t => decide (t.cap 0 = 2)) = true := by
  decide +kernel

/-- 95_test_vectors.md 2.2. -/
theorem test_bufStore :
    after (.bufStore 1 2) { did [.bufMake 1 6] running0 with di := 1, dq := 2 }
      (fun t => decide (t.sbWord 1 2 = 1 ∧ t.sbWord 1 5 = 2)) = true := by decide +kernel
theorem test_bufStore_bounds :
    faultsWith .boundsIndex (.bufStore 1 3) (did [.bufMake 1 6] running0) = true := by
  decide +kernel

/-- 95_test_vectors.md P3, PC 6, and an unconstructed buffer. -/
theorem test_bufLoad :
    after (.bufLoad 3 1)
      (running0.fillBuf 3 4 4 (fun a => [5 / 2, 3 / 2, -3, -2].getD a 0))
      (fun t => decide (t.di = 3 / 2 ∧ t.dq = -2)) = true := by decide +kernel
theorem test_bufLoad_unmade : faultsWith .notConstructed (.bufLoad 3 0) running0 = true := by
  decide +kernel

/-- 95_test_vectors.md P3, PC 5, and 2.2. -/
theorem test_bufCopy :
    after (.bufCopy 3 2)
      (running0.fillBuf 2 4 4 (fun a => [5 / 2, 3 / 2, -3, -2].getD a 0))
      (fun t => decide (t.cap 3 = 4 ∧ words t 3 4 = [5 / 2, 3 / 2, -3, -2])) = true := by
  decide +kernel
theorem test_bufCopy_unmade : faultsWith .notConstructed (.bufCopy 0 3) running0 = true := by
  decide +kernel

/-- 95_test_vectors.md (g), (d). -/
theorem test_modBind_no_mapper : faultsWith .notConstructed (.modBind .code3) running0 = true := by
  decide +kernel
theorem test_modBind : after (.modBind .qpsk) (bound .qpsk []) (fun t => t.modBound) = true := by
  decide +kernel
theorem test_demBind_order : faultsWith .cfgWrongOrder (.demBind .qam64) (bound .qpsk []) = true := by
  decide +kernel
theorem test_demBind : after (.demBind .code3) (did [.mapInit .qpsk] running0)
    (fun t => t.demBound && !t.modBound) = true := by decide +kernel

/-- 95_test_vectors.md 2.3, the third and the last QAM64 rows' shapes. -/
theorem test_modulate_qam64 :
    after (.modulate 0) (bound .qam64 [0xA5, 0x3C, 0xF0])
      (fun t => decide (t.cap 0 = 8 ∧ words t 0 8 = [3, -5, -5, -1, 7, -7, 3, 3])) = true := by
  decide +kernel
theorem test_modulate_padded :
    after (.modulate 0) (bound .qam64 [0x12, 0x34])
      (fun t => decide (t.cap 0 = 6 ∧ words t 0 6 = [5, -5, -1, -1, 5, -7])) = true := by
  decide +kernel

/-- 95_test_vectors.md P2, PC 6, and 2.4 (a four-way tie). -/
theorem test_demod : after (.demod 1) receivedP2 (fun t => output t == [0x1A, 0xE4]) = true := by
  decide +kernel
theorem test_demod_tie :
    after (.demod 0) (sampled .qam64 6 6 1) (fun t => output t == [0x90]) = true := by decide +kernel

/-- 95_test_vectors.md P2, PC 7. -/
theorem test_demodLlr :
    after (.demodLlr 1 true) receivedP2 (fun t => decide (t.llrLen = 16 ∧
      (List.range 16).map t.llrEntry =
        [12, 4, 4, -4, -32, 8, -8, 2, -12, -4, -4, 4, 40, -12, 10, 6] ∧
      output t = [0x1A, 0xE4])) = true := by decide +kernel
/-- 95_test_vectors.md 2.5, the floor: sigma = 0 is no fault. -/
theorem test_demodLlr_floor :
    after (.demodLlr 0 false) (sampled .qpsk 1 1 0) (fun t => decide (t.llrLen = 2 ∧
      t.llrEntry 0 = -200 ∧ t.llrEntry 1 = 200 ∧ t.boutLen = 0)) = true := by decide +kernel

/-- 95_test_vectors.md 2.5. -/
theorem test_llrBit :
    after (.llrBit 0 0 1) (sampled .qpsk (1 / 2) (-1 / 4) 1)
      (fun t => decide (t.qr = .fin (1 / 2))) = true := by decide +kernel
theorem test_llrBit_bounds :
    faultsWith .boundsIndex (.llrBit 0 0 2) (sampled .qpsk (1 / 2) (-1 / 4) 1) = true := by
  decide +kernel

/-- 44_channel.md R144, its example, and DI < 0. -/
theorem test_chSet :
    after .chSet
      { running0 with di := 1 / 2, oracle := [[1 / 4, -1 / 2, 5 / 4, 0, -5 / 4, 1 / 2]], cursor := 3 }
      (fun t => decide (t.sigma = 1 / 2 ∧ t.chValid = true ∧ t.cursor = 0 ∧
        (List.range 6).map t.nzValue = [1 / 4, -1 / 2, 5 / 4, 0, -5 / 4, 1 / 2])) = true := by
  decide +kernel
theorem test_chSet_negative : faultsWith .illegal .chSet { running0 with di := -1 } = true := by
  decide +kernel

/-- 44_channel.md R145, its example, and the wrap of the cursor. -/
theorem test_chTxs :
    after .chTxs { noisyP2 with di := 1, dq := 1 }
      (fun t => decide (t.di = 5 / 4 ∧ t.dq = 1 / 2 ∧ t.cursor = 2)) = true := by decide +kernel
theorem test_chTxs_wraps :
    after .chTxs { noisyP2 with di := 0, dq := 0, cursor := 5 }
      (fun t => decide (t.di = 1 / 2 ∧ t.dq = 1 / 4 ∧ t.cursor = 1)) = true := by decide +kernel

/-- 95_test_vectors.md P2, PC 5, and 2.6. -/
theorem test_chTxb :
    after (.chTxb 1 0) (did [.modulate 0] noisyP2)
      (fun t => decide (t.cap 1 = 8 ∧ t.cursor = 2 ∧
        words t 1 8 = [-11 / 4, 9 / 4, -17 / 4, 5 / 4, -3 / 2, 3, 3 / 2, -7 / 2])) = true := by
  decide +kernel
theorem test_chTxb_no_channel : faultsWith .notConstructed (.chTxb 1 0) running0 = true := by
  decide +kernel

/-- 95_test_vectors.md 2.6, V5. -/
theorem test_chQ : after .chQ noisyP2 (fun t => decide (t.qr = .fin (1 / 2))) = true := by
  decide +kernel
theorem test_chLogq_zero :
    after .chLogq { noisyP2 with sigma := 0 } (fun t => decide (t.qr = .posInf)) = true := by
  decide +kernel
theorem test_chLogq_one :
    after .chLogq { noisyP2 with sigma := 1 } (fun t => decide (t.qr = .fin 0)) = true := by
  decide +kernel

/-- 95_test_vectors.md (a). -/
theorem test_halt :
    after .halt running0 (fun t => decide (t = { running0 with run := .done })) = true := by
  decide +kernel

/-- 95_test_vectors.md P1 and P3: STATUS of the end states. -/
theorem test_status :
    statusWord { bound .qpsk [] with run := .done } = 0x0000020D ∧
    statusWord { fresh0 with chValid := true, run := .faulted } = 0x00000370 := by decide +kernel

/-- 10_state.md R22, R29: BIN_LEN above BYTES_MAX (8 here) is refused. -/
theorem test_binLen_refused :
    hostWriteReg 0x05 (.u32 9) fresh0 = .next fresh0 ∧
    hostWriteReg 0x05 (.u32 8) fresh0 = .next { fresh0 with binLen := 8 } := ⟨rfl, rfl⟩

/-! ### Witnesses: concrete states and operands that meet the hypotheses of each statement, clause by clause -/

/-- A word placed at PC 15, the last of CM. -/
def atLast (w : Word) : State := { running0 with cm := [(15, w)], pc := 15 }

/-- An instruction that answers a next state, for the statements about `exec i s = .next t`. -/
theorem witness_exec_next (i : Instr) (s : State) (h : after i s (fun _ => true) = true) :
    ∃ t, exec i s = .next t := by
  unfold after at h
  split at h
  · exact ⟨_, ‹_›⟩
  · cases h
  · cases h

theorem witness_WordIsLegalExactlyWhenARowMatches :
    (atLast 0).run = .running ∧ (atLast 0).pc < (atLast 0).params.cmSize ∧
      ¬ ∃ i, decode ((atLast 0).cmWord (atLast 0).pc) = .ok i :=
  ⟨rfl, by decide, fun ⟨_, h⟩ => by cases h⟩

theorem witness_DecodingInvertsEncoding :
    (Instr.mapInit .qam64).WellFormed ∧ (Instr.chTxb 3 2).WellFormed ∧
      (Instr.llrBit 3 65535 15).WellFormed := by decide

theorem witness_LegalWordIsTheEncodingOfItsCommand :
    decode 0x333FFFFF = .ok (.llrBit 3 65535 15) := rfl

theorem witness_StepFetchesDecodesAndExecutes :
    ({ running0 with pc := 16 }.run = .running ∧ running0.params.cmSize ≤ 16) ∧
    ((atLast 0x01000003).run = .running ∧ (atLast 0x01000003).pc < (atLast 0x01000003).params.cmSize ∧
      decode ((atLast 0x01000003).cmWord (atLast 0x01000003).pc) = .error .orderThree) ∧
    ((atLast 0x7F000000).run = .running ∧ (atLast 0x7F000000).pc < (atLast 0x7F000000).params.cmSize ∧
      decode ((atLast 0x7F000000).cmWord (atLast 0x7F000000).pc) = .ok .halt) ∧
    fresh0.run ≠ .running :=
  ⟨⟨rfl, by decide⟩, ⟨rfl, by decide, rfl⟩, ⟨rfl, by decide, rfl⟩, by decide⟩

theorem witness_PlacedWordRunsNext :
    1 ≤ ({ fresh0 with params := { params6 with cmSize := 1 } } : State).params.cmSize ∧
      decodeTableWord 32 0x7F000000 = some .halt := ⟨by decide, rfl⟩

theorem witness_FaultingCommandDoesOnlyFaultEntry :
    running0.run = .running ∧ exec .mapOrder running0 = .next (raise .notConstructed running0) ∧
      (raise .notConstructed running0).run = .faulted := ⟨rfl, rfl, rfl⟩

theorem witness_CommandAdvancesPcUnlessItHaltsOrFaults : running0.run = .running := rfl

theorem witness_FaultCodesAreReadInErrAndEpc : running0.err = none := rfl

theorem witness_FaultedCoreStaysUntilReset :
    (raise .illegal running0).run = .faulted ∧ HostAction.start ≠ .reset ∧
      hostMove .start (raise .illegal running0) = .next (raise .illegal running0) :=
  ⟨rfl, by decide, rfl⟩

theorem witness_RunChangesOnlyByStartHaltFaultReset :
    hostMove .start fresh0 = .next (hostStart fresh0) ∧ (hostStart fresh0).run = .running ∧
    step (atLast 0x7F000000) = .next { atLast 0x7F000000 with run := .done } ∧
    (fresh0.run = .idle ∨ fresh0.run = .done) ∧
    ({ fresh0 with run := .done }.run = .idle ∨ { fresh0 with run := .done }.run = .done) :=
  ⟨rfl, rfl, rfl, .inl rfl, .inr rfl⟩

theorem witness_EveryRunEnds :
    (running0.run = .running ∧ running0.pc ≤ running0.params.cmSize) ∧
      ({ running0 with pc := 16 }.run = .running ∧ 16 ≤ running0.params.cmSize) :=
  ⟨⟨rfl, by decide⟩, rfl, by decide⟩

/-- The least and the largest parameters of 00_scope.md R5, and those of the tests. -/
theorem witness_InvariantHoldsAfterPowerOn :
    Params.Ok ⟨1, 2, 1, 1, 1⟩ ∧ Params.Ok ⟨65535, 65534, 65535, 65535, 1 / 1000⟩ ∧ params6.Ok := by
  decide +kernel

theorem atLast_inv : (atLast 0x01000002).Inv :=
  ⟨by decide +kernel, by decide +kernel, by decide +kernel, by decide +kernel, by decide +kernel,
    by decide +kernel, by decide +kernel⟩

theorem fresh0_inv : fresh0.Inv :=
  ⟨by decide +kernel, by decide +kernel, by decide +kernel, by decide +kernel, by decide +kernel,
    by decide +kernel, by decide +kernel⟩

theorem witness_EveryStepKeepsTheInvariant :
    (atLast 0x01000002).Inv ∧ ∃ t, step (atLast 0x01000002) = .next t := by
  refine ⟨atLast_inv, ?_⟩
  exact ⟨_, (rfl : step (atLast 0x01000002) = exec (.mapInit .qam64) (atLast 0x01000002))⟩

theorem witness_EveryHostMoveKeepsTheInvariant :
    fresh0.Inv ∧ hostMove (.writeGt 63 ⟨1, 1⟩) fresh0 = .next { fresh0 with gt := [(63, ⟨1, 1⟩)] } :=
  ⟨fresh0_inv, rfl⟩

theorem witness_ResultRegistersAreWrittenByFiveAndReadByNone :
    (∃ t, exec .mapBps (bound .qam16 []) = .next t ∧ t.res ≠ (bound .qam16 []).res ∧
      ∀ f, t ≠ raise f (bound .qam16 [])) ∧
    (∃ t, exec .chQ noisyP2 = .next t ∧ t.qr ≠ noisyP2.qr ∧ ∀ f, t ≠ raise f noisyP2) ∧
    hostMove .start fresh0 = .next (hostStart fresh0) ∧ HostAction.start ≠ .reset :=
  ⟨⟨_, rfl, by decide +kernel, fun f h => by cases f <;> revert h <;> decide +kernel⟩,
    ⟨_, rfl, by decide +kernel, fun f h => by cases f <;> revert h <;> decide +kernel⟩, rfl, by decide⟩

theorem witness_DataRegistersAreTouchedByFiveCommands :
    (∃ t, exec (.mapGet 3) (bound .qpsk []) = .next t ∧
      (t.di ≠ (bound .qpsk []).di ∨ t.dq ≠ (bound .qpsk []).dq)) ∧
    (∃ t, exec .halt running0 = .next t) ∧
    (∃ t, exec .chSet running0 = .next t) ∧ fresh0.run ≠ .running :=
  ⟨⟨_, rfl, by decide +kernel⟩, ⟨_, rfl⟩, ⟨_, rfl⟩, by decide⟩

theorem witness_MapperStateIsWrittenByItsCommands :
    (∃ t, exec .mapInstall (bound .qpsk []) = .next t) ∧ (∀ o, Instr.mapInstall ≠ .mapInit o) ∧
    (∃ t, exec .halt running0 = .next t) ∧ (∀ o, Instr.halt ≠ .mapInit o) ∧ Instr.halt ≠ .mapInstall :=
  ⟨⟨_, rfl⟩, nofun, ⟨_, rfl⟩, nofun, nofun⟩

theorem witness_OnlyTheDestinationBufferIsWritten :
    (∃ t, exec (.bufMake 1 6) running0 = .next t) ∧ (Instr.bufMake 1 6).bufferWritten ≠ some 0 :=
  ⟨⟨_, rfl⟩, by decide⟩

theorem witness_CommandsNeverWriteHostMemories : ∃ t, exec .halt running0 = .next t := ⟨_, rfl⟩

theorem witness_OutputsAndChannelAreWrittenByTheirCommands :
    (∃ t, exec .halt running0 = .next t) ∧ (∀ bs, Instr.halt ≠ .demod bs) ∧
    (∀ bs, Instr.halt ≠ .demodLlr bs true) ∧ (∀ bs h, Instr.halt ≠ .demodLlr bs h) ∧
    Instr.halt ≠ .chSet ∧ Instr.halt ≠ .chTxs ∧ ∀ bd bs, Instr.halt ≠ .chTxb bd bs :=
  ⟨⟨_, rfl⟩, nofun, nofun, nofun, nofun, nofun, nofun⟩

theorem witness_HostWritesOnlyWhatItMay :
    (hostMove (.writeBin 7 1) fresh0 = .next { fresh0 with bin := [(7, 1)] } ∧
      HostAction.writeBin 7 1 ≠ .reset) ∧
    (hostMove .start running0 = .next running0 ∧ running0.run = .running ∧ HostAction.start ≠ .reset) ∧
    (hostMove .start { fresh0 with run := .done, pc := 5 } =
        .next { fresh0 with run := .running, pc := 0 }) :=
  ⟨⟨rfl, by decide⟩, ⟨rfl, rfl, by decide⟩, rfl⟩

theorem witness_MapInitConstructsTheMapper :
    Order.qpsk ≠ .code3 ∧ 3 < points .qpsk ∧ points .qpsk ≤ 4 ∧ 63 < points .qam64 ∧ points .qam64 ≤ 64 := by
  decide

theorem witness_DefaultMapIsAGrayCodedGrid :
    Order.qam64 ≠ .code3 ∧ 62 + 1 < points .qam64 ∧ (0 < bps .qam64 ∧ gray 62 ^^^ gray 63 = 2 ^ 0) ∧
      genDefault .qam64 63 = genDefault .qam64 63 ∧ 3 < 2 ^ (bps .qam64 / 2 - 1) := by decide +kernel

theorem witness_MapInstallCopiesTheGeneratorTable :
    (running0.mapValid = false ∧ (bound .qpsk []).mapValid = true ∧ 3 < points (bound .qpsk []).order ∧
      points (bound .qpsk []).order ≤ 4) ∧
    (∃ t, hostMove (.writeGt 63 ⟨1, 1⟩) fresh0 = .next t) ∧
    (∃ t, exec (.mapInit .qpsk) { running0 with custom := true } = .next t ∧ t.custom = false) :=
  ⟨by decide +kernel, ⟨_, rfl⟩, ⟨_, rfl, rfl⟩⟩

theorem witness_MapOrderAndMapBpsReadTheOrder :
    running0.mapValid = false ∧
    ((bound .qpsk []).mapValid = true ∧ (bound .qpsk []).order = .qpsk) ∧
    ((bound .qam16 []).mapValid = true ∧ (bound .qam16 []).order = .qam16) ∧
    ((bound .qam64 []).mapValid = true ∧ (bound .qam64 []).order = .qam64) := by decide +kernel

theorem witness_MapGetReadsOneEntry :
    running0.mapValid = false ∧ (bound .qam64 []).mapValid = true ∧
      points (bound .qam64 []).order ≤ (64 : BitVec 16).toNat ∧
      (63 : BitVec 16).toNat < points (bound .qam64 []).order := by decide +kernel

theorem witness_BufMakeConstructsAnEvenBuffer :
    (0 : BitVec 16).toNat = 0 ∧ (15 : BitVec 16).toNat % 2 = 1 ∧
    running0.params.capMax < (18 : BitVec 16).toNat ∧
    ((16 : BitVec 16).toNat ≠ 0 ∧ (16 : BitVec 16).toNat % 2 = 0 ∧
      (16 : BitVec 16).toNat ≤ running0.params.capMax) ∧ (0 : BufId) ≠ 1 := by decide

/-- A buffer of three samples in slot 1. -/
def three : State := did [.bufMake 1 6] running0

theorem witness_BufStoreWritesOneSample :
    three.cap 0 = 0 ∧ (three.cap 1 ≠ 0 ∧ three.cap 1 / 2 ≤ (3 : BitVec 16).toNat) ∧
      (2 : BitVec 16).toNat < three.cap 1 / 2 := by decide +kernel

theorem witness_BufLoadReadsOneSample :
    three.cap 0 = 0 ∧ (three.cap 1 ≠ 0 ∧ three.cap 1 / 2 ≤ (3 : BitVec 16).toNat) ∧
      (2 : BitVec 16).toNat < three.cap 1 / 2 := by decide +kernel

theorem witness_BufCopyDuplicatesTheSource :
    three.cap 0 = 0 ∧ three.cap 1 ≠ 0 ∧ (0 : BufId) ≠ 1 := by decide +kernel

theorem witness_StoredSampleReadsBackExactly :
    (2 : BitVec 16).toNat < three.cap 1 / 2 ∧
      (∀ i ∈ [Instr.bufMake 0 2, .mapInit .qpsk, .chSet], i.bufferWritten ≠ some 1) ∧
      (∃ u, execAll [.bufMake 0 2, .mapInit .qpsk, .chSet] three = .next u) ∧
      1 < three.cap 1 / 2 ∧ 1 ≠ (2 : BitVec 16).toNat :=
  ⟨by decide +kernel, by decide, ⟨_, rfl⟩, by decide +kernel, by decide⟩

theorem witness_BindsCheckTheMapperThenTheOrder :
    running0.mapValid = false ∧ (bound .qpsk []).mapValid = true ∧ Order.qam64 ≠ .code3 ∧
      Order.qam64 ≠ (bound .qpsk []).order ∧ Order.qpsk = (bound .qpsk []).order := by decide +kernel

theorem witness_TwoByteWindowGivesTheGroup : (bound .qam64 [0x12, 0x34]).order ≠ .code3 := by
  decide +kernel

theorem witness_SymbolCountCoversEveryBit :
    (bound .qpsk [0x80]).order ≠ .code3 ∧ (bound .qpsk [0x80]).order = .qpsk ∧
      (bound .qam16 []).order = .qam16 ∧ (bound .qam64 [1]).order = .qam64 := by decide +kernel

theorem witness_ModulateMapsEveryGroup :
    running0.modBound = false ∧
    ((bound .qpsk []).modBound = true ∧ (8 * (bound .qpsk []).binLen + 2 - 1) / 2 = 0) ∧
    ((bound .qpsk [1, 2, 3]).modBound = true ∧
      (bound .qpsk [1, 2, 3]).params.capMax < 2 * ((8 * (bound .qpsk [1, 2, 3]).binLen + 2 - 1) / 2)) ∧
    ((bound .qpsk [1, 2]).modBound = true ∧ (8 * (bound .qpsk [1, 2]).binLen + 2 - 1) / 2 ≠ 0 ∧
      2 * ((8 * (bound .qpsk [1, 2]).binLen + 2 - 1) / 2) ≤ (bound .qpsk [1, 2]).params.capMax) ∧
    bps (bound .qpsk [1, 2]).order = 2 := by decide +kernel

theorem witness_NearestIsTheFirstOfLeastDistance :
    63 < points (bound .qam64 []).order ∧
      35 < (bound .qam64 []).nearest ⟨6, 6⟩ := by decide +kernel

theorem witness_PackWritesTheBitsMsbFirst :
    1 < [63, 48].length ∧ 5 < 6 ∧ [63, 48].length * 6 ≤ 12 ∧
      (pack 6 [63, 48] running0).boutLen ≤ 2 := by decide +kernel

theorem witness_DemodPacksTheNearestIndices :
    running0.demBound = false ∧
    ((bound .qam16 []).demBound = true ∧ (bound .qam16 []).cap 0 = 0) ∧
    (receivedP2.demBound = true ∧ receivedP2.cap 1 ≠ 0 ∧ 3 < receivedP2.cap 1 / 2 ∧
      3 < bps receivedP2.order ∧ receivedP2.cap 1 / 2 * bps receivedP2.order ≤ 16) := by decide +kernel

theorem witness_LlrIsTheScaledDistanceDifference :
    5 < bps (bound .qam64 []).order ∧ 31 < points (bound .qam64 []).order ∧
      Nat.testBit 31 5 = false ∧ Nat.testBit 32 5 = true := by decide +kernel

theorem witness_DemodLlrWritesSoftBitsInStreamOrder :
    running0.demBound = false ∧
    ((bound .qam16 []).demBound = true ∧ (bound .qam16 []).cap 0 = 0) ∧
    (three.chValid = false) ∧
    (receivedP2.demBound = true ∧ receivedP2.cap 1 ≠ 0 ∧ receivedP2.chValid = true ∧
      3 < receivedP2.cap 1 / 2 ∧ 3 < bps receivedP2.order) := by decide +kernel

theorem witness_LlrBitPutsOneLlrInQr :
    running0.demBound = false ∧
    ((bound .qam16 []).demBound = true ∧ (bound .qam16 []).chValid = false) ∧
    (receivedP2.demBound = true ∧ receivedP2.cap 1 ≠ 0 ∧ receivedP2.chValid = true ∧
      receivedP2.cap 1 / 2 ≤ (4 : BitVec 16).toNat ∧ bps receivedP2.order ≤ (4 : BitVec 4).toNat) ∧
    ((3 : BitVec 16).toNat < receivedP2.cap 1 / 2 ∧ (3 : BitVec 4).toNat < bps receivedP2.order) := by
  decide +kernel

theorem witness_HardAndSoftDecisionsAgreeWithoutTies :
    (0 < (bound .qam16 []).params.sigma2Floor ∧ 4 < points (bound .qam16 []).order ∧
      ∀ j < points (bound .qam16 []).order, j ≠ 4 →
        dist2 ⟨1 / 2, -5 / 2⟩ ((bound .qam16 []).ctPoint 4) <
          dist2 ⟨1 / 2, -5 / 2⟩ ((bound .qam16 []).ctPoint j)) ∧
    ((bound .qpsk []).order = .qpsk ∧
      ∀ idx < 4, (bound .qpsk []).ctPoint idx = genDefault .qpsk idx) := by decide +kernel

/-- QAM64, two bytes, so that two pad bits are needed; a channel at sigma = 0. -/
def quiet : State := did [.chSet] (bound .qam64 [0x12, 0x34])

theorem quiet_inv : quiet.Inv :=
  ⟨by decide +kernel, by decide +kernel, by decide +kernel, by decide +kernel, by decide +kernel,
    by decide +kernel, by decide +kernel⟩

theorem witness_NoiselessRoundTripIsExact :
    quiet.Inv ∧ quiet.custom = false ∧ quiet.modBound = true ∧ quiet.demBound = true ∧
      1 ≤ quiet.binLen ∧ 2 * quiet.symbolCount ≤ quiet.params.capMax ∧
      8 * quiet.binLen % bps quiet.order ≠ 0 ∧ quiet.chValid = true ∧ quiet.sigma = 0 ∧
      8 * (bound .qpsk [0x80]).binLen % bps (bound .qpsk [0x80]).order = 0 :=
  ⟨quiet_inv, by decide +kernel⟩

theorem witness_ChSetRegeneratesTheNoiseCache :
    ({ running0 with di := -1 } : State).di < 0 ∧ (0 : QNum) ≤ running0.di ∧ running0.di = 0 ∧
      5 < running0.params.noiseLen ∧ running0.params.noiseLen ≤ 6 := by decide +kernel

theorem witness_DrawsReuseTheCacheCyclically :
    ({ running0 with cursor := 5 } : State).cursor < running0.params.noiseLen ∧
      1 ≤ running0.params.noiseLen ∧ 5 < 6 := by decide

theorem witness_NoiseRepeatsWithPeriodL :
    ({ running0 with cursor := 5 } : State).cursor < running0.params.noiseLen ∧
      0 + running0.params.noiseLen < 7 := by decide

theorem witness_ChTxsAddsTwoDraws : running0.chValid = false ∧ noisyP2.chValid = true := by
  decide +kernel

theorem witness_ChTxbAddsTwoDrawsToEverySample :
    (2 : BufId) = 2 ∧ ((1 : BufId) ≠ 0 ∧ running0.chValid = false) ∧
    ((1 : BufId) ≠ 0 ∧ noisyP2.cap 0 = 0) ∧
    ((1 : BufId) ≠ 0 ∧ (did [.modulate 0] noisyP2).chValid = true ∧
      (did [.modulate 0] noisyP2).cap 0 ≠ 0 ∧ (did [.modulate 0] noisyP2).cap 0 % 2 = 0 ∧
      (did [.modulate 0] noisyP2).cursor < (did [.modulate 0] noisyP2).params.noiseLen ∧
      3 < (did [.modulate 0] noisyP2).cap 0 / 2) := by decide +kernel

theorem witness_ChannelQualityIsReadInQr :
    running0.chValid = false ∧
    (noisyP2.chValid = true ∧ noisyP2.sigma ≠ 0) ∧
    (({ noisyP2 with sigma := 0 } : State).chValid = true ∧ ({ noisyP2 with sigma := 0 } : State).sigma = 0) ∧
    ({ noisyP2 with sigma := 1 } : State).sigma = 1 := by decide +kernel

theorem witness_StartBeginsARunAtZero :
    fresh0.run = .idle ∧ ({ fresh0 with run := .done } : State).run = .done ∧
      running0.run = .running ∧ (raise .illegal running0).run = .faulted := ⟨rfl, rfl, rfl, rfl⟩

theorem witness_ResetRestoresEveryRegister :
    (∃ s, hostMove .reset s = .next (hostReset running0)) ∧ ∃ p, fresh0 = State.resetWith p :=
  ⟨⟨running0, rfl⟩, ⟨params6, rfl⟩⟩

theorem witness_StatusCollectsTheFlags : fresh0.run ≠ .running := by decide

theorem witness_HostRegisterMap :
    fresh0.run ≠ .running ∧ (0x0D ≤ 0x0F ∧ 0x0F < 0x10 ∧ 0x0F ≠ 0x1F) ∧ (0x14 ≤ 0x1E ∧ 0x1E ≠ 0x1F) ∧
      (8 : Word).toNat ≤ fresh0.params.bytesMax ∧ fresh0.params.bytesMax < (9 : Word).toNat := by decide

theorem witness_CtrlIgnoresOtherValues :
    (0 : Word) ≠ 1 ∧ (0 : Word) ≠ 2 ∧ (3 : Word) ≠ 1 ∧ (3 : Word) ≠ 2 ∧ fresh0.run ≠ .running := by decide

theorem witness_HostHasNoMoveDuringARun :
    running0.run = .running ∧ (∀ w, (HostAction.writeCm 0 0 : HostAction) ≠ .writeReg 0x1F (.u32 w)) ∧ (1 : Word) ≠ 2 :=
  ⟨rfl, nofun, by decide⟩

/-- The last index of each space, the first outside it, and the last sample of a full buffer. -/
theorem witness_HostMemoryWritesReadBack :
    (fresh0.run ≠ .running ∧ 15 < fresh0.params.cmSize ∧ 7 < fresh0.params.bytesMax ∧
      47 < 3 * fresh0.params.capMax ∧ 15 < fresh0.params.capMax ∧ 63 < 64 ∧ 5 < fresh0.params.noiseLen) ∧
    (fresh0.params.cmSize ≤ 16 ∧ fresh0.params.bytesMax ≤ 8 ∧ 64 ≤ 64 ∧ spaceSize fresh0.params .llr ≤ 48 ∧
      spaceSize fresh0.params (.sb 3) ≤ 16 ∧ spaceSize fresh0.params .nz ≤ 6) ∧
    ({ did [.bufMake 0 16] running0 with run := .done }.run ≠ .running ∧
      (did [.bufMake 0 16] running0).cap 0 ≤ (did [.bufMake 0 16] running0).params.capMax ∧
      7 < (did [.bufMake 0 16] running0).cap 0 / 2) := by decide +kernel

end Sys2Proof.Tests
end

section
/-! SUPPORT. What each command may write, said once: its footprint (10_state.md R12 to R26). Everything outside
the footprint is as it was, whether the command completes or faults. -/

namespace Sys2Proof.Machine

/-- `s` with what the command may write, and the control registers, taken from `u`. -/
def footprint (i : Instr) (s u : State) : State :=
  let c := { s with pc := u.pc, run := u.run, err := u.err, epc := u.epc }
  match i with
  | .mapInit _ =>
    { c with
      ct := u.ct, order := u.order, mapValid := u.mapValid, custom := u.custom
      modBound := u.modBound, demBound := u.demBound }
  | .mapInstall => { c with ct := u.ct, custom := u.custom }
  | .mapOrder => { c with res := u.res }
  | .mapBps => { c with res := u.res }
  | .mapGet _ => { c with di := u.di, dq := u.dq }
  | .bufMake bd _ => { c.setBuf bd (u.buf bd) with fresh := u.fresh }
  | .bufStore bd _ => c.setBuf bd (u.buf bd)
  | .bufLoad _ _ => { c with di := u.di, dq := u.dq }
  | .bufCopy bd _ => c.setBuf bd (u.buf bd)
  | .modBind _ => { c with modBound := u.modBound }
  | .modulate bd => c.setBuf bd (u.buf bd)
  | .demBind _ => { c with demBound := u.demBound }
  | .demod _ => { c with bout := u.bout, boutLen := u.boutLen }
  | .demodLlr _ h =>
    { c with
      llr := u.llr, llrLen := u.llrLen
      bout := if h then u.bout else s.bout, boutLen := if h then u.boutLen else s.boutLen }
  | .llrBit _ _ _ => { c with qr := u.qr }
  | .chSet =>
    { c with
      sigma := u.sigma, chValid := u.chValid, nz := u.nz, cursor := u.cursor
      regens := u.regens, oracle := u.oracle }
  | .chTxs => { c with di := u.di, dq := u.dq, cursor := u.cursor }
  | .chTxb bd _ => { c.setBuf bd (u.buf bd) with cursor := u.cursor }
  | .chQ => { c with qr := u.qr }
  | .chLogq => { c with qr := u.qr }
  | .halt => c

@[simp] theorem setBuf_buf {K : Type} (s : State K) (b : BufId) : s.setBuf b (s.buf b) = s := by
  simp [State.setBuf, State.buf]

/-- A buffer replaced and PC advanced, and nothing else. -/
theorem setBuf_within (b : BufId) (x : Buffer) (s : State) :
    (advance s).setBuf b ((advance (s.setBuf b x)).buf b) = advance (s.setBuf b x) := by
  rw [buf_advance, buf_setBuf_same]; rfl

/-- A transmit writes the destination buffer and the cursor. -/
theorem transmit_frame {K : Type} [Field K] [LinearOrder K] [Inhabited K] (bd bs : BufId) (s : State K) :
    transmit bd bs s =
      { s.setBuf bd ((transmit bd bs s).buf bd) with cursor := (transmit bd bs s).cursor } := by
  rw [transmit, draws_frame]
  simp [State.fillBuf, State.setBuf, State.buf]

/-- Fault entry stays inside every footprint. -/
theorem footprint_raise (i : Instr) (f : CmdFault) (s : State) :
    footprint i s (raise f s) = raise f s := by
  have buffer (b : BufId) : (raise f s).setBuf b (s.buf b) = raise f s := setBuf_buf (raise f s) b
  cases i with
  | bufMake bd _ => exact buffer bd
  | bufStore bd _ => exact buffer bd
  | bufCopy bd _ => exact buffer bd
  | modulate bd => exact buffer bd
  | chTxb bd _ => exact buffer bd
  | demodLlr _ hard => cases hard <;> rfl
  | _ => rfl

/-- A command whose effect stays inside a footprint stays inside it when it faults, too. -/
theorem command_within_footprint {i : Instr} {s t : State} {checks : List (Bool × CmdFault)}
    {effect : State} (h : command s checks effect = .next t)
    (he : footprint i s (advance effect) = advance effect) : footprint i s t = t := by
  obtain ⟨f, -, rfl⟩ | ⟨-, rfl⟩ := command_cases h
  · exact footprint_raise i f s
  · exact he

theorem exec_within_footprint {i : Instr} {s t : State} (h : exec i s = .next t) :
    footprint i s t = t := by
  cases i with
  | halt => cases h; rfl
  | bufMake bd len =>
    refine command_within_footprint h ?_
    exact congrArg (fun u : State => { u with fresh := s.fresh + 1 }) (setBuf_within bd _ s)
  | bufStore bd idx => exact command_within_footprint h (setBuf_within bd _ s)
  | bufCopy bd bs =>
    refine command_within_footprint h ?_
    split
    · exact setBuf_buf (advance s) bd
    · exact setBuf_within bd _ s
  | modulate bd => exact command_within_footprint h (setBuf_within bd _ s)
  | chTxb bd bs =>
    refine command_within_footprint h ?_
    rw [transmit_frame]
    exact congrArg (fun u : State => { u with cursor := (transmit bd bs s).cursor }) (setBuf_within bd _ s)
  | demodLlr bs hard => cases hard <;> exact command_within_footprint h rfl
  | _ => exact command_within_footprint h rfl

/-- The form that proofs use: put for `t`, the footprint shows by `rfl` which fields are those of `s`. -/
theorem exec_eq_footprint {i : Instr} {s t : State} (h : exec i s = .next t) :
    ∃ u, t = footprint i s u :=
  ⟨t, (exec_within_footprint h).symm⟩

end Sys2Proof.Machine
end

section
/-! SUPPORT. What a command does not read: its answer when registers it ignores hold other values
(10_state.md R12, R13). -/

namespace Sys2Proof.Machine

/-- `s` with other values in RES and QR. -/
def State.withResults (r : Word) (q : NumX) (s : State) : State := { s with res := r, qr := q }

/-- `s` with other values in DI and DQ. -/
def State.withData (x y : QNum) (s : State) : State := { s with di := x, dq := y }

/-- `s` with another value in DQ. -/
def State.withDq (y : QNum) (s : State) : State := { s with dq := y }

/-- Draws commute with an update that one draw commutes with. -/
theorem draws_commutes {K : Type} [Inhabited K] {g : State K → State K}
    (hdraw : ∀ s, draw (g s) = ((draw s).1, g (draw s).2)) (n : Nat) (s : State K) :
    draws n (g s) = ((draws n s).1, g (draws n s).2) := by
  induction n generalizing s with
  | zero => rfl
  | succ n ih => simp only [draws, hdraw, ih]

/-- A transmit commutes with an update that leaves the buffers and the noise source alone. -/
theorem transmit_commutes {K : Type} [Field K] [LinearOrder K] [Inhabited K] {g : State K → State K}
    (hdraw : ∀ s, draw (g s) = ((draw s).1, g (draw s).2)) (hbuf : ∀ s, (g s).buf = s.buf)
    (hset : ∀ s b x, (g s).setBuf b x = g (s.setBuf b x)) (bd bs : BufId) (s : State K) :
    transmit bd bs (g s) = g (transmit bd bs s) := by
  have hcap : (g s).cap bs = s.cap bs := congrArg Buffer.cap (congrFun (hbuf s) bs)
  have hword : (g s).sbWord bs = s.sbWord bs := funext (sbWord_of_buf_eq (congrFun (hbuf s) bs))
  simp only [transmit, State.fillBuf, hcap, hword, draws_commutes hdraw, hbuf, hset]

/-- A command commutes with an update that fault entry, the advance of PC, its checks and its effect commute
with. -/
theorem command_commutes {g : State → State} {s t effect effect' : State} {checks : List (Bool × CmdFault)}
    (h : command s checks effect = .next t) (he : effect' = g effect)
    (hraise : ∀ f, raise f (g s) = g (raise f s)) (hadvance : advance (g effect) = g (advance effect)) :
    command (g s) checks effect' = .next (g t) := by
  obtain ⟨f, hf, rfl⟩ | ⟨hf, rfl⟩ := command_cases h
  · rw [command_of_fails _ hf, hraise]
  · rw [command_of_passes _ hf, he, hadvance]

theorem command_withData {s t effect effect' : State} {checks : List (Bool × CmdFault)} {x y : QNum}
    (h : command s checks effect = .next t) (he : effect' = effect.withData x y) :
    command (s.withData x y) checks effect' = .next (t.withData x y) :=
  command_commutes h he (fun _ => rfl) rfl

/-- DI and DQ are carried along by the commands that neither read nor write them (10_state.md R12). -/
theorem exec_withData {i : Instr} {s t : State} (x y : QNum) (h : exec i s = .next t)
    (hstore : ∀ bd idx, i ≠ .bufStore bd idx) (hload : ∀ bs idx, i ≠ .bufLoad bs idx)
    (hget : ∀ idx, i ≠ .mapGet idx) (htxs : i ≠ .chTxs) (hset : i ≠ .chSet) :
    exec i (s.withData x y) = .next (t.withData x y) := by
  cases i with
  | bufStore bd idx => exact absurd rfl (hstore bd idx)
  | bufLoad bs idx => exact absurd rfl (hload bs idx)
  | mapGet idx => exact absurd rfl (hget idx)
  | chTxs => exact absurd rfl htxs
  | chSet => exact absurd rfl hset
  | halt => cases h; rfl
  | chTxb bd bs =>
    exact command_withData h <|
      transmit_commutes (g := State.withData x y) (fun _ => rfl) (fun _ => rfl) (fun _ _ _ => rfl) bd bs s
  | bufCopy bd bs => exact command_withData h (by split <;> rfl)
  | demodLlr bs hard => cases hard <;> exact command_withData h rfl
  | _ => exact command_withData h rfl

/-- CH_SET takes sigma from DI and does not see DQ. -/
theorem exec_chSet_withDq {s t : State} (y : QNum) (h : exec .chSet s = .next t) :
    exec .chSet (s.withDq y) = .next (t.withDq y) :=
  command_commutes (g := State.withDq y) h rfl (fun _ => rfl) rfl

/-- `R` and `Q` say when the command writes RES and QR: there its effect is the same whatever they held. -/
theorem command_withResults {s t effect effect' : State} {checks : List (Bool × CmdFault)} {r : Word}
    {q : NumX} {R Q : Prop} (h : command s checks effect = .next t)
    (he : effect'.withResults effect.res effect.qr = effect)
    (hres : R → effect'.res = effect.res) (hqr : Q → effect'.qr = effect.qr) :
    ∃ u, command (s.withResults r q) checks effect' = .next u ∧ u.withResults t.res t.qr = t ∧
      ((∀ f, t ≠ raise f s) → (R → u.res = t.res) ∧ (Q → u.qr = t.qr)) := by
  obtain ⟨f, hf, rfl⟩ | ⟨hf, rfl⟩ := command_cases h
  · exact ⟨_, command_of_fails _ hf, rfl, fun hne => absurd rfl (hne f)⟩
  · exact ⟨_, command_of_passes _ hf, congrArg advance he, fun _ => ⟨hres, hqr⟩⟩

/-- No command reads RES or QR (10_state.md R13). -/
theorem exec_withResults {i : Instr} {s t : State} (r : Word) (q : NumX) (h : exec i s = .next t) :
    ∃ u, exec i (s.withResults r q) = .next u ∧ u.withResults t.res t.qr = t ∧
      ((∀ f, t ≠ raise f s) →
        (i = .mapOrder ∨ i = .mapBps → u.res = t.res) ∧
        (i = .chQ ∨ i = .chLogq ∨ (∃ bs idx pos, i = .llrBit bs idx pos) → u.qr = t.qr)) := by
  cases i with
  | halt => cases h; exact ⟨_, rfl, rfl, fun _ => by simp⟩
  | mapOrder => exact command_withResults h rfl (fun _ => rfl) (by simp)
  | mapBps => exact command_withResults h rfl (fun _ => rfl) (by simp)
  | chQ => exact command_withResults h rfl (by simp) (fun _ => rfl)
  | chLogq => exact command_withResults h rfl (by simp) (fun _ => rfl)
  | llrBit bs idx pos => exact command_withResults h rfl (by simp) (fun _ => rfl)
  | chTxb bd bs =>
    have hcarried : transmit bd bs (s.withResults r q) = (transmit bd bs s).withResults r q :=
      transmit_commutes (g := State.withResults r q) (fun _ => rfl) (fun _ => rfl) (fun _ _ _ => rfl) bd bs s
    exact command_withResults h (by rw [hcarried]; rfl) (by simp) (by simp)
  | bufCopy bd bs => exact command_withResults h (by split <;> rfl) (by simp) (by simp)
  | demodLlr bs hard => cases hard <;> exact command_withResults h rfl (by simp) (by simp)
  | _ => exact command_withResults h rfl (by simp) (by simp)

end Sys2Proof.Machine
end

section
/-! SUPPORT. The host's registers: CTRL, the register map between runs, and the bits of STATUS (10_state.md R28
to R30). -/

namespace Sys2Proof.Machine

theorem hostMove_writeCtrl (w : Word) (s : State) :
    hostMove (.writeReg 0x1F (.u32 w)) s = .next (writeCtrl w s) := by
  unfold hostMove; split <;> rfl

theorem hostMove_start (s : State) : hostMove .start s = .next (hostStart s) := hostMove_writeCtrl 1 s

/-- START has an effect from IDLE and DONE alone (45_control.md R166). -/
theorem hostStart_cases (s : State) :
    ((s.run = .idle ∨ s.run = .done) ∧ hostStart s = { s with pc := 0, run := .running }) ∨
      (¬(s.run = .idle ∨ s.run = .done) ∧ hostStart s = s) := by
  by_cases hr : s.run = .idle ∨ s.run = .done
  · exact .inl ⟨hr, if_pos hr⟩
  · exact .inr ⟨hr, if_neg hr⟩

theorem hostReadReg_between_runs {s : State} (hr : s.run ≠ .running) {n : Nat} (hn : n ≠ 0x1F) :
    hostReadReg n s = .ok (regView n s) := by
  simp [hostReadReg, hr, hn]

theorem hostMove_between_runs {s : State} (hr : s.run ≠ .running) (h : HostAction) :
    hostMove h s = hostWrite h s :=
  if_neg hr

theorem regView_cap (b : BufId) (s : State) : regView (0x09 + b.val) s = zext32 (s.cap b) :=
  match b with
  | 0 | 1 | 2 | 3 => rfl

theorem regView_reserved {n : Nat} (hlow : 0x0D ≤ n) (hgap : n < 0x10 ∨ 0x14 ≤ n) (s : State) :
    regView n s = .u32 0 := by
  unfold regView
  split
  case h_18 => rfl
  all_goals omega

theorem hostWriteReg_ignored {n : Nat} (hlen : n ≠ 0x05) (hdi : n ≠ 0x10) (hdq : n ≠ 0x11)
    (hctrl : n ≠ 0x1F) (v : RegVal) (s : State) : hostWriteReg n v s = .next s := by
  unfold hostWriteReg
  split
  case h_9 => rfl
  all_goals contradiction

/-- Bit `k` of STATUS, by the row of the table of 10_state.md R28 it stands in. -/
theorem getLsbD_statusWord (s : State) (k : Nat) :
    (statusWord s).getLsbD k =
      if k < 5 then [s.mapValid, s.custom, s.modBound, s.demBound, s.chValid].getD k false
      else if k < 7 then s.order.code.getLsbD (k - 5)
      else decide (8 ≤ k ∧ k < 10) && s.run.code.getLsbD (k - 8) := by
  unfold statusWord
  rw [BitVec.getLsbD_append]
  simp only [BitVec.getLsbD_append]
  match k with
  | 0 | 1 | 2 | 3 | 4 | 5 | 6 | 7 => simp
  | k + 8 => simp [show ¬k + 8 < 5 by omega, show ¬k + 8 < 7 by omega, Nat.lt_succ_iff]

theorem statusWord_order (s : State) : (statusWord s).extractLsb' 5 2 = s.order.code := by
  refine BitVec.eq_of_getLsbD_eq fun j hj => ?_
  rw [BitVec.getLsbD_extractLsb', getLsbD_statusWord, if_neg (by omega), if_pos (by omega)]
  simp [hj]

theorem statusWord_run (s : State) : (statusWord s).extractLsb' 8 2 = s.run.code := by
  refine BitVec.eq_of_getLsbD_eq fun j hj => ?_
  rw [BitVec.getLsbD_extractLsb', getLsbD_statusWord, if_neg (by omega), if_neg (by omega)]
  simp [hj, show 8 + j < 10 by omega]

theorem statusWord_high (s : State) : (statusWord s).extractLsb' 10 22 = 0 := by
  refine BitVec.eq_of_getLsbD_eq fun j hj => ?_
  rw [BitVec.getLsbD_extractLsb', getLsbD_statusWord, if_neg (by omega), if_neg (by omega)]
  simp

end Sys2Proof.Machine
end

section
/-! The statements of the family 10_state.md. -/

open Sys2Proof Sys2Proof.Machine

/-- Settles O8, by what every command does to the control registers. -/
theorem commandAdvancesPcUnlessItHaltsOrFaults :
    Obligations.CommandAdvancesPcUnlessItHaltsOrFaults := by
  intro i s hr
  by_cases hi : i = .halt
  · subst hi
    exact ⟨_, rfl, .inr (.inl ⟨rfl, rfl, rfl⟩)⟩
  · obtain ⟨t, h⟩ := exec_answers_next i s
    refine ⟨t, h, ?_⟩
    obtain ⟨f, rfl⟩ | ⟨-, hrun, hpc, -⟩ | ⟨hhalt, -⟩ := exec_control h
    · exact .inr (.inr ⟨rfl, hi, rfl⟩)
    · exact .inl ⟨hrun.trans hr, hi, hpc⟩
    · exact absurd hhalt hi

/-- Settles O11, by all that a move of the host and a step of the core can do. -/
theorem runChangesOnlyByStartHaltFaultReset : Obligations.RunChangesOnlyByStartHaltFaultReset := by
  refine ⟨⟨rfl, rfl, rfl, rfl⟩, fun h s t hm => ?host, fun s t hs => ?core, fun s hr => ?start,
    fun s => ⟨_, hostMove_reset s, rfl⟩⟩
  case host =>
    obtain ⟨rfl, rfl⟩ | ⟨rfl, rfl⟩ | rfl | ⟨-, hw⟩ := hostMove_cases hm
    · exact .inr (.inr ⟨rfl, rfl⟩)
    · obtain ⟨hr, e⟩ | ⟨-, e⟩ := hostStart_cases s
      · exact .inr (.inl ⟨rfl, hr, congrArg State.run e⟩)
      · exact .inl (congrArg State.run e)
    · exact .inl rfl
    · exact .inl (by cases hw <;> rfl)
  case core =>
    obtain ⟨-, rfl⟩ | ⟨hr, rfl⟩ | ⟨hr, -, i, hi, hx⟩ := step_cases hs
    · exact .inl rfl
    · exact .inr (.inr ⟨hr, ⟨_, rfl⟩, rfl⟩)
    · obtain ⟨f, rfl⟩ | ⟨-, hrun, -⟩ | ⟨rfl, rfl⟩ := exec_control hx
      · exact .inr (.inr ⟨hr, ⟨f, rfl⟩, rfl⟩)
      · exact .inl hrun
      · exact .inr (.inl ⟨hr, hi, rfl⟩)
  case start =>
    refine ⟨_, hostMove_start s, ?_⟩
    obtain ⟨-, e⟩ | ⟨hne, -⟩ := hostStart_cases s
    · exact congrArg State.run e
    · exact absurd hr hne

/-- Settles O16: RES and QR stand in the footprints of their five commands, and no command reads them. -/
theorem resultRegistersAreWrittenByFiveAndReadByNone :
    Obligations.ResultRegistersAreWrittenByFiveAndReadByNone := by
  refine ⟨fun i s t h => ?commands, fun h s t hm hreset => ?host, fun i s t r q h => exec_withResults r q h⟩
  case commands =>
    obtain ⟨u, rfl⟩ := exec_eq_footprint h
    cases i with
    | mapOrder => exact ⟨fun _ => .inl rfl, fun hne => absurd rfl hne⟩
    | mapBps => exact ⟨fun _ => .inr rfl, fun hne => absurd rfl hne⟩
    | chQ => exact ⟨fun hne => absurd rfl hne, fun _ => .inl rfl⟩
    | chLogq => exact ⟨fun hne => absurd rfl hne, fun _ => .inr (.inl rfl)⟩
    | llrBit bs idx pos => exact ⟨fun hne => absurd rfl hne, fun _ => .inr (.inr ⟨bs, idx, pos, rfl⟩)⟩
    | _ => exact ⟨fun hne => absurd rfl hne, fun hne => absurd rfl hne⟩
  case host =>
    obtain ⟨rfl, -⟩ | ⟨-, rfl⟩ | rfl | ⟨-, hw⟩ := hostMove_cases hm
    · exact absurd rfl hreset
    · obtain ⟨-, e⟩ | ⟨-, e⟩ := hostStart_cases s <;> rw [e] <;> exact ⟨rfl, rfl⟩
    · exact ⟨rfl, rfl⟩
    · cases hw <;> exact ⟨rfl, rfl⟩

/-- Settles O17: DI and DQ stand in the footprints of three commands, and two more read them. -/
theorem dataRegistersAreTouchedByFiveCommands : Obligations.DataRegistersAreTouchedByFiveCommands := by
  refine ⟨fun i s t h hne => ?written, fun i s t x y h => exec_withData x y h,
    fun s t y h => exec_chSet_withDq y h, fun s x hr => ⟨?_, ?_, ?_, ?_⟩⟩
  case written =>
    obtain ⟨u, rfl⟩ := exec_eq_footprint h
    cases i with
    | bufLoad bs idx => exact .inl ⟨bs, idx, rfl⟩
    | mapGet idx => exact .inr (.inl ⟨idx, rfl⟩)
    | chTxs => exact .inr (.inr rfl)
    | _ => exact absurd ⟨rfl, rfl⟩ (not_and_or.2 hne)
  · exact hostReadReg_between_runs hr (by decide)
  · exact hostReadReg_between_runs hr (by decide)
  · exact hostMove_between_runs hr _
  · exact hostMove_between_runs hr _

/-- Settles O18: the mapper's state stands in the footprints of its own commands. -/
theorem mapperStateIsWrittenByItsCommands : Obligations.MapperStateIsWrittenByItsCommands := by
  intro i s t h hinit
  obtain ⟨u, rfl⟩ := exec_eq_footprint h
  cases i with
  | mapInit o => exact absurd rfl (hinit o)
  | mapInstall => exact ⟨rfl, rfl, fun hne => absurd rfl hne, fun _ => rfl, fun _ => rfl⟩
  | modBind e => exact ⟨rfl, rfl, fun _ => ⟨rfl, rfl⟩, fun hne => absurd rfl (hne e), fun _ => rfl⟩
  | demBind e => exact ⟨rfl, rfl, fun _ => ⟨rfl, rfl⟩, fun _ => rfl, fun hne => absurd rfl (hne e)⟩
  | _ => exact ⟨rfl, rfl, fun _ => ⟨rfl, rfl⟩, fun _ => rfl, fun _ => rfl⟩

/-- Settles O19: a footprint holds the destination buffer and no other. -/
theorem onlyTheDestinationBufferIsWritten : Obligations.OnlyTheDestinationBufferIsWritten := by
  intro i s t b h hb
  suffices hbuf : t.buf b = s.buf b from ⟨hbuf, sbWord_of_buf_eq hbuf⟩
  have other {bd : BufId} (hbd : some bd ≠ some b) : b ≠ bd := fun e => hbd (congrArg some e.symm)
  obtain ⟨u, rfl⟩ := exec_eq_footprint h
  cases i with
  | bufMake bd len => exact buf_setBuf_of_ne s _ (other hb)
  | bufStore bd idx => exact buf_setBuf_of_ne s _ (other hb)
  | bufCopy bd bs => exact buf_setBuf_of_ne s _ (other hb)
  | modulate bd => exact buf_setBuf_of_ne s _ (other hb)
  | chTxb bd bs => exact buf_setBuf_of_ne s _ (other hb)
  | _ => rfl

/-- Settles O21: the outputs and the channel stand in the footprints of their own commands. -/
theorem outputsAndChannelAreWrittenByTheirCommands :
    Obligations.OutputsAndChannelAreWrittenByTheirCommands := by
  intro i s t h
  obtain ⟨u, rfl⟩ := exec_eq_footprint h
  refine ⟨fun hdemod hhard => ?bits, fun hllr => ?soft, fun hset => ?channel,
    fun hset htxs htxb => ?cursor⟩
  case bits =>
    cases i with
    | demod bs => exact absurd rfl (hdemod bs)
    | demodLlr bs hard =>
      cases hard with
      | true => exact absurd rfl (hhard bs)
      | false => exact ⟨rfl, fun _ => rfl⟩
    | _ => exact ⟨rfl, fun _ => rfl⟩
  case soft =>
    cases i with
    | demodLlr bs hard => exact absurd rfl (hllr bs hard)
    | _ => exact ⟨rfl, fun _ => rfl⟩
  case channel =>
    cases i with
    | chSet => exact absurd rfl hset
    | _ => exact ⟨rfl, rfl, fun _ => rfl⟩
  case cursor =>
    cases i with
    | chSet => exact absurd rfl hset
    | chTxs => exact absurd rfl htxs
    | chTxb bd bs => exact absurd rfl (htxb bd bs)
    | _ => rfl

/-- Settles O55: power-on and RESET leave one state, but for the parameters, the key and the oracle's answers. -/
theorem resetRestoresEveryRegister : Obligations.ResetRestoresEveryRegister := by
  refine ⟨fun s => ⟨_, hostMove_reset s, rfl⟩, fun t ht => ?_⟩
  obtain ⟨p, key, answers, rfl⟩ :
      ∃ p key answers, t = { State.afterReset p key with oracle := answers } := by
    obtain ⟨s, hs⟩ | ⟨p, rfl⟩ := ht
    · rw [hostMove_reset] at hs
      exact ⟨s.params, s.fresh, s.oracle, (Host.Outcome.next.inj hs).symm⟩
    · exact ⟨p, 0, [], rfl⟩
  simp [State.afterReset, State.cap, State.buf, Buffer.unmade]

/-- Settles O56, by the row of R28 each bit stands in. -/
theorem statusCollectsTheFlags : Obligations.StatusCollectsTheFlags := by
  intro s
  refine ⟨?_, ?_, ?_, ?_, ?_, statusWord_order s, ?_, statusWord_run s, statusWord_high s,
    fun hr => hostReadReg_between_runs hr (by decide)⟩
  all_goals rw [getLsbD_statusWord]; rfl

/-- Settles O57, register by register of R29. -/
theorem hostRegisterMap : Obligations.HostRegisterMap := by
  intro s hr
  have read (n : Nat) (hn : n ≠ 0x1F := by decide) := hostReadReg_between_runs hr hn
  refine ⟨read 0x00, read 0x01, read 0x02, read 0x03, read 0x04, read 0x05, read 0x06, read 0x07, read 0x08,
    fun b => ?capacity, read 0x10, read 0x11, read 0x12, read 0x13, fun n hlow hgap hn => ?reserved,
    fun n v hlen hdi hdq hctrl => ?ignored, fun w hw => ?length, fun w hw => ?refused,
    fun x => ⟨hostMove_between_runs hr _, hostMove_between_runs hr _⟩⟩
  case capacity => rw [read _ (by omega), regView_cap]; rfl
  case reserved => rw [read n hn, regView_reserved hlow hgap]
  all_goals rw [hostMove_between_runs hr]
  case ignored => exact hostWriteReg_ignored hlen hdi hdq hctrl v s
  case length => exact congrArg Host.Outcome.next (if_neg (by omega))
  case refused => exact congrArg Host.Outcome.next (if_pos hw)

/-- Settles O58, by the cases of a write to CTRL. -/
theorem ctrlIgnoresOtherValues : Obligations.CtrlIgnoresOtherValues := by
  refine fun s w => ⟨fun hstart hreset => ?_, fun hr => by simp [hostReadReg, hr]⟩
  obtain ⟨rfl, -⟩ | ⟨rfl, -⟩ | ⟨-, -, e⟩ := writeCtrl_cases w s
  · exact absurd rfl hreset
  · exact absurd rfl hstart
  · rw [hostMove_writeCtrl, e]

end

section
/-! SUPPORT. The host's access to the memory spaces, during a run and between runs (20_memory.md R40, R41, R52). -/

namespace Sys2Proof.Machine

theorem hostMove_during_run {s : State} (hr : s.run = .running) (h : HostAction) :
    hostMove h s = hostWriteDuringRun h s :=
  if_pos hr

/-- A move that is no write of a word to CTRL is no move during a run. -/
theorem hostWriteDuringRun_of_ne_ctrl {h : HostAction} (hctrl : ∀ w, h ≠ .writeReg 0x1F (.u32 w)) (s : State) :
    hostWriteDuringRun h s = .fault .hostAccessDuringRun := by
  unfold hostWriteDuringRun
  split
  case h_1 w => exact absurd rfl (hctrl w)
  all_goals rfl

/-- START is ignored during a run (45_control.md R166), as every value but RESET is. -/
theorem writeCtrl_during_run {s : State} (hr : s.run = .running) {w : Word} (hw : w ≠ 2) :
    writeCtrl w s = s := by
  obtain ⟨rfl, -⟩ | ⟨-, e⟩ | ⟨-, -, e⟩ := writeCtrl_cases w s
  · exact absurd rfl hw
  · rw [e]
    exact if_neg (by simp [hr])
  · exact e

theorem hostReadMem_of_view {s : State} (hr : s.run ≠ .running) {sp : Space} {a : Nat} {e : Element}
    (ha : a < spaceSize s.params sp) (he : memView sp a s = e) : hostReadMem sp a s = .ok e := by
  simp [hostReadMem, hr, ha, he]

theorem hostReadMem_outside {s : State} (hr : s.run ≠ .running) {sp : Space} {a : Nat}
    (ha : spaceSize s.params sp ≤ a) : hostReadMem sp a s = .error .noSuchElement := by
  simp [hostReadMem, hr, ha]

/-- Between runs a write of an element inside its space is done, and the element is read back. -/
theorem hostMove_write_inside {h : HostAction} {sp : Space} {a : Nat} {s t : State} {e : Element}
    (hr : s.run ≠ .running) (hw : hostWrite h s = hostWriteMem sp a s t) (ha : a < spaceSize s.params sp)
    (hrun : t.run = s.run) (hparams : t.params = s.params) (hview : memView sp a t = e) :
    hostMove h s = .next t ∧ hostReadMem sp a t = .ok e := by
  constructor
  · rw [hostMove_between_runs hr, hw]
    exact if_neg (Nat.not_le.2 ha)
  · exact hostReadMem_of_view (hrun ▸ hr) (hparams ▸ ha) hview

/-- Between runs a write of an element outside its space answers the fault of the host port (log entry 8). -/
theorem hostMove_write_outside {h : HostAction} {sp : Space} {a : Nat} {s t : State} (hr : s.run ≠ .running)
    (hw : hostWrite h s = hostWriteMem sp a s t) (ha : spaceSize s.params sp ≤ a) :
    hostMove h s = .fault .noSuchElement := by
  rw [hostMove_between_runs hr, hw]
  exact if_pos ha

/-- An element just written is read back, whatever an unwritten element would read as. -/
theorem Memory.getD_read_write_same {α : Type} (m : Memory α) (a : Nat) (v d : α) :
    ((m.write a v).read a).getD d = v := by
  rw [Memory.read_write_same, Option.getD_some]

/-- A write leaves the other elements as they read. -/
theorem Memory.getD_read_write_of_ne {α : Type} (m : Memory α) {a b : Nat} (v d : α) (h : b ≠ a) :
    ((m.write a v).read b).getD d = (m.read b).getD d := by
  rw [Memory.read_write_of_ne _ _ h]

/-- A sample of a buffer that fits stands inside its space, real part and imaginary part (41_buffer.md R106). -/
theorem sample_index_inside {p : Params} {cap n : Nat} (b : BufId) (hcap : cap ≤ p.capMax) (hn : n < cap / 2) :
    n < spaceSize p (.sb b) ∧ cap / 2 + n < spaceSize p (.sb b) := by
  simp only [spaceSize]
  omega

end Sys2Proof.Machine
end

section
/-! The statements of the family 20_memory.md. -/

open Sys2Proof Sys2Proof.Machine

/-- Settles O20: no footprint holds what the host owns. -/
theorem commandsNeverWriteHostMemories : Obligations.CommandsNeverWriteHostMemories := by
  intro i s t h
  obtain ⟨u, rfl⟩ := exec_eq_footprint h
  cases i <;> exact ⟨rfl, rfl, rfl, rfl, rfl, fun _ => ⟨rfl, rfl, rfl⟩⟩

/-- Settles O59: of the host's moves a run leaves the write to CTRL alone, and of its values RESET. -/
theorem hostHasNoMoveDuringARun : Obligations.HostHasNoMoveDuringARun := by
  intro s hr
  refine ⟨fun h hctrl => ?other, fun w hw => ?ctrl, ⟨_, hostMove_reset s, rfl⟩, fun n => if_pos hr,
    fun sp a => if_pos hr⟩
  case other => rw [hostMove_during_run hr, hostWriteDuringRun_of_ne_ctrl hctrl]
  case ctrl => rw [hostMove_writeCtrl, writeCtrl_during_run hr hw]

/-- Settles O60: between runs a read inside a space answers the element, and a write inside CM, BIN or GT is the
write of that element. -/
theorem hostMemoryWritesReadBack : Obligations.HostMemoryWritesReadBack := by
  intro s hr
  have read (sp : Space) (a : Nat) (ha : a < spaceSize s.params sp) := hostReadMem_of_view hr ha rfl
  refine ⟨⟨read .cm, fun a ha => ⟨read .bin a ha, read .bout a ha⟩, read .llr, fun b => read (.sb b),
      fun a ha => ⟨read .ct a ha, read .gt a ha⟩, read .nz⟩,
    fun b hcap n hn => ?sample, fun a w ha => ?cm, fun a x ha => ?bin, fun a p ha => ?gt,
    fun sp a v => hostMove_between_runs hr _, fun sp a ha => hostReadMem_outside hr ha,
    fun a w ha => ?cmOutside, fun a x ha => ?binOutside, fun a p ha => ?gtOutside⟩
  case sample =>
    obtain ⟨hre, him⟩ := sample_index_inside b hcap hn
    exact ⟨read (.sb b) n hre, read (.sb b) _ him⟩
  case cm =>
    obtain ⟨hmove, hread⟩ := hostMove_write_inside (h := .writeCm a w) (sp := .cm) hr rfl ha rfl rfl
      (congrArg Element.word (Memory.getD_read_write_same ..))
    exact ⟨_, hmove, rfl, hread, fun b hb => Memory.getD_read_write_of_ne _ _ _ hb⟩
  case bin =>
    obtain ⟨hmove, hread⟩ := hostMove_write_inside (h := .writeBin a x) (sp := .bin) hr rfl ha rfl rfl
      (congrArg Element.byte (Memory.getD_read_write_same ..))
    exact ⟨_, hmove, rfl, hread, fun b hb => Memory.getD_read_write_of_ne _ _ _ hb⟩
  case gt =>
    obtain ⟨hmove, hread⟩ := hostMove_write_inside (h := .writeGt a p) (sp := .gt) hr rfl ha rfl rfl
      (congrArg Element.point (Memory.getD_read_write_same ..))
    exact ⟨_, hmove, rfl, hread, fun b hb => Memory.getD_read_write_of_ne _ _ _ hb⟩
  case cmOutside => exact hostMove_write_outside (sp := .cm) hr rfl ha
  case binOutside => exact hostMove_write_outside (sp := .bin) hr rfl ha
  case gtOutside => exact hostMove_write_outside (sp := .gt) hr rfl ha

end

section
/-! SUPPORT. Which words decode, and the bits of a word that the command of a row carries (30_encoding.md R63 to
R66). -/

namespace Sys2Proof

theorem opField_maskWord (c : Opcode) : opField c.maskWord = BitVec.allOnes 8 := by cases c <;> decide

theorem opField_matchWord (c : Opcode) : opField c.matchWord = c.code := by cases c <;> decide

/-- Every row's mask covers the field `op`. -/
theorem opField_of_match {w : Word} {c : Opcode} (h : w &&& c.maskWord = c.matchWord) : opField w = c.code :=
  calc opField w
    _ = opField w &&& opField c.maskWord := by rw [opField_maskWord, BitVec.and_allOnes]
    _ = opField c.matchWord := h ▸ (field_and w c.maskWord 24 8).symm
    _ = c.code := opField_matchWord c

theorem opcodeOf_of_match {w : Word} {c : Opcode} (h : w &&& c.maskWord = c.matchWord) :
    opcodeOf (opField w) = some c := by
  rw [opField_of_match h, opcodeOf_code]

/-- A word matches one row at most. -/
theorem row_unique {w : Word} {c d : Opcode} (hc : w &&& c.maskWord = c.matchWord)
    (hd : w &&& d.maskWord = d.matchWord) : c = d :=
  Option.some.inj ((opcodeOf_of_match hc).symm.trans (opcodeOf_of_match hd))

/-- A word decodes by the row it matches, if the command of that row is well-formed. -/
theorem decode_eq_ok_iff {w : Word} {i : Instr} :
    decode w = .ok i ↔ ∃ c : Opcode, w &&& c.maskWord = c.matchWord ∧ c.command w = i ∧ i.WellFormed := by
  constructor
  · intro h
    simp only [decode] at h
    split at h
    · cases h
    next c _ =>
      split_ifs at h with hmatch hwf
      cases h
      exact ⟨c, hmatch, rfl, hwf⟩
  · rintro ⟨c, hmatch, rfl, hwf⟩
    simp [decode, opcodeOf_of_match hmatch, hmatch, hwf]

theorem orderOfCode_eq_code3_iff (x : BitVec 2) : orderOfCode x = .code3 ↔ x = 3 := by
  revert x; decide

theorem bufOfCode_inj {x y : BitVec 2} : bufOfCode x = bufOfCode y ↔ x = y :=
  ⟨fun h => by simpa using congrArg bufCode h, congrArg bufOfCode⟩

/-- The value conditions of R64 (c) and (d), on the fields of the word. -/
theorem wellFormed_command_iff (c : Opcode) (w : Word) :
    (c.command w).WellFormed ↔
      ¬(c = .mapInit ∧ w.extractLsb' 0 2 = 3) ∧ ¬(c = .chTxb ∧ bdField w = bsField w) := by
  cases c with
  | mapInit => simp [Instr.WellFormed, Instr.wf, Opcode.command, orderOperand, orderOfCode_eq_code3_iff]
  | chTxb => simp [Instr.WellFormed, Instr.wf, Opcode.command, bufOfCode_inj]
  | _ => exact iff_of_true rfl ⟨nofun, nofun⟩

/-- A word is a command exactly when it matches a row and neither value condition forbids it. -/
theorem decodes_iff (w : Word) :
    (∃ i, decode w = .ok i) ↔
      (∃ c : Opcode, w &&& c.maskWord = c.matchWord) ∧
      ¬(w &&& Opcode.mapInit.maskWord = Opcode.mapInit.matchWord ∧ w.extractLsb' 0 2 = 3) ∧
      ¬(w &&& Opcode.chTxb.maskWord = Opcode.chTxb.matchWord ∧ bdField w = bsField w) := by
  simp only [decode_eq_ok_iff]
  constructor
  · rintro ⟨_, c, hmatch, rfl, hwf⟩
    obtain ⟨horder, hbuf⟩ := (wellFormed_command_iff c w).1 hwf
    exact ⟨⟨c, hmatch⟩, fun ⟨hinit, h3⟩ => horder ⟨row_unique hmatch hinit, h3⟩,
      fun ⟨htxb, hsame⟩ => hbuf ⟨row_unique hmatch htxb, hsame⟩⟩
  · rintro ⟨⟨c, hmatch⟩, horder, hbuf⟩
    refine ⟨_, c, hmatch, rfl, (wellFormed_command_iff c w).2 ⟨?_, ?_⟩⟩
    · rintro ⟨rfl, h3⟩
      exact horder ⟨hmatch, h3⟩
    · rintro ⟨rfl, hsame⟩
      exact hbuf ⟨hmatch, hsame⟩

theorem Opcode.mem_all (c : Opcode) : c ∈ Opcode.all := by cases c <;> decide

/-- Words with the same fields are the same. -/
theorem word_ext {w w' : Word} (hop : opField w = opField w') (hbd : bdField w = bdField w')
    (hbs : bsField w = bsField w') (hfl : flField w = flField w') (himm : immField w = immField w') : w = w' := by
  rw [← packWord_fields w, hop, hbd, hbs, hfl, himm, packWord_fields]

/-- Bits `m` with the bits of `x` that the mask `k` leaves open: what a row makes of a word, or of a field. -/
def overlay {n : Nat} (m k x : BitVec n) : BitVec n := m ||| x &&& ~~~k

theorem overlay_allOnes {n : Nat} (m x : BitVec n) : overlay m (BitVec.allOnes n) x = m := by simp [overlay]

theorem overlay_zero {n : Nat} (x : BitVec n) : overlay 0 0 x = x := by simp [overlay]

theorem field_overlay (m k w : Word) {start len : Nat} (h : start + len ≤ 32) :
    (overlay m k w).extractLsb' start len =
      overlay (m.extractLsb' start len) (k.extractLsb' start len) (w.extractLsb' start len) := by
  ext j hj
  have : start + j < 32 := by omega
  simp [overlay, this]

/-- A word that matches keeps all its bits. -/
theorem overlay_of_match {n : Nat} {m k x : BitVec n} (h : x &&& k = m) : overlay m k x = x := by
  rw [overlay, ← h, ← BitVec.and_or_distrib_left, BitVec.or_not_self, BitVec.and_allOnes]

/-- An order code in the immediate is its low two bits. -/
theorem overlay_order (x : BitVec 16) : overlay 0 0xFFFC x = (x.setWidth 2).setWidth 16 := by
  apply BitVec.eq_of_toNat_eq
  have low : x.toNat &&& 3 = x.toNat % 4 := Nat.and_two_pow_sub_one_eq_mod x.toNat 2
  have small : x.toNat % 4 % 65536 = x.toNat % 4 := by omega
  simp [overlay, low, small]

/-- The flag H is the low bit of `fl`. -/
theorem overlay_flag (x : BitVec 4) : overlay 0 0xE x = if x.getLsbD 0 then 1 else 0 := by
  revert x; decide

section
variable (c : Opcode) (w : Word)

theorem opcode_command : (c.command w).opcode = c := by cases c <;> rfl

theorem opField_encode_command :
    opField (encode (c.command w)) = overlay (opField c.matchWord) (opField c.maskWord) (opField w) := by
  obtain ⟨hop, -, -⟩ := Laws.RowOfEncoding.holds (c.command w)
  rw [hop, opcode_command, opField_maskWord, overlay_allOnes, opField_matchWord]

theorem bdField_encode_command :
    bdField (encode (c.command w)) = overlay (bdField c.matchWord) (bdField c.maskWord) (bdField w) := by
  cases c with
  | bufMake | bufStore | bufCopy | modulate | chTxb =>
    rw [Opcode.command, encode, bdField_packWord, bufCode_bufOfCode]
    exact (overlay_zero _).symm
  | _ =>
    rw [Opcode.command, encode, bdField_packWord]
    exact (overlay_allOnes 0 _).symm

theorem bsField_encode_command :
    bsField (encode (c.command w)) = overlay (bsField c.matchWord) (bsField c.maskWord) (bsField w) := by
  cases c with
  | bufLoad | bufCopy | demod | demodLlr | llrBit | chTxb =>
    rw [Opcode.command, encode, bsField_packWord, bufCode_bufOfCode]
    exact (overlay_zero _).symm
  | _ =>
    rw [Opcode.command, encode, bsField_packWord]
    exact (overlay_allOnes 0 _).symm

theorem flField_encode_command :
    flField (encode (c.command w)) = overlay (flField c.matchWord) (flField c.maskWord) (flField w) := by
  cases c with
  | llrBit =>
    rw [Opcode.command, encode, flField_packWord]
    exact (overlay_zero _).symm
  | demodLlr =>
    rw [Opcode.command, encode, flField_packWord]
    exact (overlay_flag _).symm
  | _ =>
    rw [Opcode.command, encode, flField_packWord]
    exact (overlay_allOnes 0 _).symm

theorem immField_encode_command :
    immField (encode (c.command w)) = overlay (immField c.matchWord) (immField c.maskWord) (immField w) := by
  cases c with
  | mapGet | bufMake | bufStore | bufLoad | llrBit =>
    rw [Opcode.command, encode, immField_packWord]
    exact (overlay_zero _).symm
  | mapInit | modBind | demBind =>
    rw [Opcode.command, encode, immField_packWord, orderOperand_eq, code_orderOfCode]
    exact (overlay_order _).symm
  | _ =>
    rw [Opcode.command, encode, immField_packWord]
    exact (overlay_allOnes 0 _).symm

/-- The command of a row carries every bit of the word that the row's mask leaves open, whether the word matches
or not. -/
theorem encode_command : encode (c.command w) = overlay c.matchWord c.maskWord w :=
  word_ext ((opField_encode_command c w).trans (field_overlay _ _ w (by decide)).symm)
    ((bdField_encode_command c w).trans (field_overlay _ _ w (by decide)).symm)
    ((bsField_encode_command c w).trans (field_overlay _ _ w (by decide)).symm)
    ((flField_encode_command c w).trans (field_overlay _ _ w (by decide)).symm)
    ((immField_encode_command c w).trans (field_overlay _ _ w (by decide)).symm)

end

/-- Encoding after decoding is the identity on the words that match the row. -/
theorem encode_command_of_match {c : Opcode} {w : Word} (h : w &&& c.maskWord = c.matchWord) :
    encode (c.command w) = w :=
  (encode_command c w).trans (overlay_of_match h)

end Sys2Proof

namespace Sys2Proof.Machine

/-- A running core at a word inside CM that is no command raises Illegal and does nothing else. -/
theorem step_of_illegal {s : State} (hr : s.run = .running) (hill : ¬∃ i, fetch s = .ok i) :
    step s = .next (raise .illegal s) := by
  obtain ⟨t, h⟩ := step_answers_next s
  obtain ⟨hidle, -⟩ | ⟨-, rfl⟩ | ⟨-, -, i, hi, -⟩ := step_cases h
  · exact absurd hr hidle
  · exact h
  · exact absurd ⟨i, hi⟩ hill

end Sys2Proof.Machine
end

section
/-! The statements of the family 30_encoding.md. -/

open Sys2Proof Sys2Proof.Machine

/-- Settles O3: the word of a command matches the row of the command, and the row gives the command back. -/
theorem decodingInvertsEncoding : Obligations.DecodingInvertsEncoding := by
  intro i hwf
  obtain ⟨-, hmatch, hcommand⟩ := Laws.RowOfEncoding.holds i
  exact decode_eq_ok_iff.2 ⟨i.opcode, hmatch, hcommand, hwf⟩

/-- Settles O2: the list of the statement is the table of R63, row by row. -/
theorem wordIsLegalExactlyWhenARowMatches : Obligations.WordIsLegalExactlyWhenARowMatches := by
  refine ⟨fun w => ?table, fun s hr _ hill => step_of_illegal hr hill, nofun, nofun⟩
  case table =>
    refine (decodes_iff w).trans (and_congr_left' ?_)
    show _ ↔ ∃ row ∈ Opcode.all.map fun c => (c.matchWord, c.maskWord), w &&& row.2 = row.1
    simp [Opcode.mem_all]

/-- Settles O4: a legal word matches the row it decodes by, and the command carries its open bits. -/
theorem legalWordIsTheEncodingOfItsCommand : Obligations.LegalWordIsTheEncodingOfItsCommand := by
  intro w i h
  obtain ⟨c, hmatch, rfl, hwf⟩ := decode_eq_ok_iff.1 h
  exact ⟨encode_command_of_match hmatch, hwf⟩

end

section
/-! SUPPORT. The checks of a command taken one at a time (60_exceptions.md R178), and the entries of a map that was
written over (40_mapper.md R85, R86). -/

namespace Sys2Proof.Machine

section
variable {K : Type} (s effect : State K) (f : CmdFault) (rest : List (Bool × CmdFault)) {c : Bool}

/-- The first check that holds raises its fault, whatever checks come after it. -/
theorem command_check_fails (hc : c = true) :
    command s ((c, f) :: rest) effect = .next (raise f s) :=
  command_of_fails effect (if_pos hc)

/-- A check that does not hold leaves the answer to the checks after it. -/
theorem command_check_passes (hc : c = false) :
    command s ((c, f) :: rest) effect = command s rest effect := by
  subst hc; rfl

/-- The check of the commands that need a mapper. -/
theorem command_without_mapper (h : s.mapValid = false) :
    command s ((!s.mapValid, .notConstructed) :: rest) effect = .next (raise .notConstructed s) :=
  command_check_fails s effect _ rest (by rw [h]; rfl)

theorem command_with_mapper (h : s.mapValid = true) :
    command s ((!s.mapValid, .notConstructed) :: rest) effect = command s rest effect :=
  command_check_passes s effect _ rest (by rw [h]; rfl)

end

/-- A map whose first `n` entries were written from `g` keeps the others. -/
theorem ctPoint_of_ct_fill {K : Type} [Inhabited K] {s t : State K} {n : Nat} {g : Nat → Point K}
    (hct : t.ct = s.ct.fill n g) (hera : t.era = s.era) :
    (∀ idx < n, t.ctPoint idx = g idx) ∧ ∀ idx, n ≤ idx → t.ctPoint idx = s.ctPoint idx := by
  refine ⟨fun idx hidx => ?_, fun idx hidx => ?_⟩ <;>
    rw [State.ctPoint, hct, hera, Memory.read_fill]
  · rw [if_pos hidx, Option.getD_some]
  · rw [if_neg (Nat.not_lt.2 hidx), State.ctPoint]

/-- The host's writes to GT do not reach the map (40_mapper.md R86). -/
theorem hostMove_writeGt_keeps_map {a : Nat} {p : Point} {s t : State} (hm : hostMove (.writeGt a p) s = .next t)
    (idx : Nat) : t.ctPoint idx = s.ctPoint idx := by
  obtain ⟨hreset, -⟩ | ⟨hstart, -⟩ | rfl | ⟨-, hw⟩ := hostMove_cases hm
  · cases hreset
  · cases hstart
  · rfl
  · cases hw; rfl

/-- Every command but MAP_INIT leaves CUSTOM set where it was set (10_state.md R17). -/
theorem exec_keeps_custom_set {i : Instr} {s t : State} (hi : ∀ o, i ≠ .mapInit o) (h : exec i s = .next t)
    (hs : s.custom = true) : t.custom = true := by
  cases i with
  | mapInit o => exact absurd rfl (hi o)
  | mapInstall =>
    obtain ⟨f, -, rfl⟩ | ⟨-, rfl⟩ := command_cases h
    · exact hs
    · rfl
  | _ =>
    obtain ⟨u, rfl⟩ := exec_eq_footprint h
    exact hs

end Sys2Proof.Machine
end

section
/-! The statements of the family 40_mapper.md. -/

open Sys2Proof Sys2Proof.Machine

/-- Settles O23, by the one check of MAP_INIT and the fill of the map. -/
theorem mapInitConstructsTheMapper : Obligations.MapInitConstructsTheMapper := by
  refine fun o s => ⟨fun ho => ?illegal, fun ho => ?constructs⟩
  case illegal => exact command_check_fails s _ _ _ (decide_eq_true ho)
  case constructs =>
    exact ⟨_, command_check_passes s _ _ _ (decide_eq_false ho), rfl, ctPoint_of_ct_fill rfl rfl⟩

/-- Settles O26: the map is filled from GT, no write to GT reaches it, and CUSTOM is cleared by MAP_INIT alone. -/
theorem mapInstallCopiesTheGeneratorTable : Obligations.MapInstallCopiesTheGeneratorTable := by
  refine fun s => ⟨command_without_mapper s _ _, fun hmap => ?installs,
    fun a p t hm idx => hostMove_writeGt_keeps_map hm idx, fun i t h hs ht => ?custom⟩
  case installs => exact ⟨_, command_with_mapper s _ _ hmap, rfl, ctPoint_of_ct_fill rfl rfl⟩
  case custom =>
    by_contra hi
    exact Bool.false_ne_true (ht.symm.trans (exec_keeps_custom_set (not_exists.1 hi) h hs))

/-- Settles O27, by the value that goes to RES for each order. -/
theorem mapOrderAndMapBpsReadTheOrder : Obligations.MapOrderAndMapBpsReadTheOrder := by
  refine fun s => ⟨fun hmap => ⟨command_without_mapper s _ _ hmap, command_without_mapper s _ _ hmap⟩,
    fun hmap => ?reads⟩
  have order {r : Word} (hr : s.order.code.setWidth 32 = r) :
      exec .mapOrder s = .next { s with res := r, pc := s.pc + 1 } := by
    subst hr; exact command_with_mapper s _ _ hmap
  have bits {r : Word} (hr : BitVec.ofNat 32 (bps s.order) = r) :
      exec .mapBps s = .next { s with res := r, pc := s.pc + 1 } := by
    subst hr; exact command_with_mapper s _ _ hmap
  refine ⟨order rfl, bits rfl, fun h => ?qpsk, fun h => ?qam16, fun h => ?qam64⟩
  all_goals exact ⟨order (by rw [h]; rfl), bits (by rw [h]; rfl)⟩

/-- Settles O28: the mapper is checked first, then the index against the number of points. -/
theorem mapGetReadsOneEntry : Obligations.MapGetReadsOneEntry := by
  refine fun idx s => ⟨command_without_mapper s _ _, fun hmap hidx => ?bounds, fun hmap hidx => ?reads⟩
  all_goals refine (command_with_mapper s _ _ hmap).trans ?_
  case bounds => exact command_check_fails s _ _ _ (decide_eq_true hidx)
  case reads => exact command_check_passes s _ _ _ (decide_eq_false (Nat.not_le.2 hidx))

end

section
/-! SUPPORT. The checks of the commands on a buffer and on one of its samples, and the words of a buffer that was
written over (41_buffer.md R102 to R104). -/

namespace Sys2Proof.Machine

section
variable {K : Type} (s effect : State K) (rest : List (Bool × CmdFault)) {b : BufId} {n : Nat}

/-- The check of the commands that need a constructed buffer. -/
theorem command_without_buffer (h : s.cap b = 0) :
    command s ((decide (s.cap b = 0), .notConstructed) :: rest) effect = .next (raise .notConstructed s) :=
  command_check_fails s effect _ rest (decide_eq_true h)

theorem command_with_buffer (h : s.cap b ≠ 0) :
    command s ((decide (s.cap b = 0), .notConstructed) :: rest) effect = command s rest effect :=
  command_check_passes s effect _ rest (decide_eq_false h)

/-- The checks of the commands on one sample: the buffer, then the index. -/
theorem command_sample_outside (hcap : s.cap b ≠ 0) (hn : s.cap b / 2 ≤ n) :
    command s ((decide (s.cap b = 0), .notConstructed) :: (decide (s.cap b / 2 ≤ n), .boundsIndex) :: rest) effect =
      .next (raise .boundsIndex s) :=
  (command_with_buffer s effect _ hcap).trans (command_check_fails s effect _ rest (decide_eq_true hn))

/-- A sample index inside the buffer says that the buffer is constructed. -/
theorem command_sample_inside (hn : n < s.cap b / 2) :
    command s ((decide (s.cap b = 0), .notConstructed) :: (decide (s.cap b / 2 ≤ n), .boundsIndex) :: rest) effect =
      command s rest effect :=
  (command_with_buffer s effect _ (by omega)).trans
    (command_check_passes s effect _ rest (decide_eq_false (Nat.not_le.2 hn)))

end

theorem cap_setBuf_same {K : Type} (s : State K) (b : BufId) (x : Buffer K) : (s.setBuf b x).cap b = x.cap := by
  rw [State.cap, buf_setBuf_same]

/-- A word of a buffer whose written words were replaced: the key of the unwritten ones stays. -/
theorem sbWord_setBuf_words {K : Type} [Inhabited K] (s : State K) (b : BufId) (w : Memory K) (a : Nat) :
    (s.setBuf b { s.buf b with words := w }).sbWord b a =
      (w.read a).getD (Config.anySb (s.buf b).era b.val a) := by
  rw [State.sbWord, buf_setBuf_same]

/-- BUF_COPY onto another buffer fills it from the source (41_buffer.md R104). -/
theorem exec_bufCopy_of_ne {bd bs : BufId} {s : State} (hcap : s.cap bs ≠ 0) (hne : bd ≠ bs) :
    exec (.bufCopy bd bs) s = .next (advance (s.fillBuf bd (s.cap bs) (s.cap bs) (s.sbWord bs))) := by
  refine (command_with_buffer s _ _ hcap).trans ?_
  rw [if_neg hne]; rfl

/-- BUF_COPY of a buffer onto itself has no effect but the advance of PC (41_buffer.md R104). -/
theorem exec_bufCopy_self {b : BufId} {s : State} (hcap : s.cap b ≠ 0) :
    exec (.bufCopy b b) s = .next (advance s) := by
  refine (command_with_buffer s _ _ hcap).trans ?_
  rw [if_pos rfl]; rfl

end Sys2Proof.Machine
end

section
/-! The statements of the family 41_buffer.md. -/

open Sys2Proof Sys2Proof.Machine

/-- Settles O29: the two checks together are the three reasons, and the new buffer has forgotten its words below
the length. -/
theorem bufMakeConstructsAnEvenBuffer : Obligations.BufMakeConstructsAnEvenBuffer := by
  refine fun bd len s => ⟨fun hbad => ?fails, fun hzero heven hmax => ?makes⟩
  case fails =>
    by_cases hshape : len.toNat = 0 ∨ len.toNat % 2 = 1
    · exact command_check_fails s _ _ _ (by simpa using hshape)
    · have hlarge : s.params.capMax < len.toNat := by omega
      exact (command_check_passes s _ _ _ (by simpa using hshape)).trans
        (command_check_fails s _ _ _ (decide_eq_true hlarge))
  case makes =>
    have hmade : exec (.bufMake bd len) s = .next (advance (s.makeBuf bd len.toNat)) :=
      (command_check_passes s _ _ _ (by simp [hzero, heven])).trans
        (command_check_passes s _ _ _ (decide_eq_false (Nat.not_lt.2 hmax)))
    refine ⟨_, hmade, rfl, ?_⟩
    simp only [State.cap, buf_advance, buf_makeBuf_same, Memory.read_forgetBelow, true_and]
    exact ⟨fun a ha => if_neg (Nat.not_le.2 ha), fun a ha => if_pos ha,
      fun b hb => buf_makeBuf_of_ne s _ hb⟩

/-- Settles O30: the two words of a sample inside the buffer are different words, so the second write leaves the
first. -/
theorem bufStoreWritesOneSample : Obligations.BufStoreWritesOneSample := by
  refine fun bd idx s => ⟨command_without_buffer s _ _, command_sample_outside s _ _, fun hidx => ?stores⟩
  case stores =>
    have hne : idx.toNat ≠ s.cap bd / 2 + idx.toNat := by omega
    refine ⟨_, command_sample_inside s _ _ hidx, rfl, ?cap, ?re, ?im, fun a hre him => ?words,
      fun b hb => buf_setBuf_of_ne s _ hb⟩
    case cap => exact cap_setBuf_same s bd _
    all_goals refine (sbWord_setBuf_words s bd _ _).trans ?_
    case re => rw [Memory.getD_read_write_of_ne _ _ _ hne, Memory.getD_read_write_same]
    case im => rw [Memory.getD_read_write_same]
    case words =>
      rw [Memory.getD_read_write_of_ne _ _ _ him, Memory.getD_read_write_of_ne _ _ _ hre, State.sbWord]

/-- Settles O31: the buffer is checked first, then the index; the words read are those of the sample. -/
theorem bufLoadReadsOneSample : Obligations.BufLoadReadsOneSample := fun _ _ s =>
  ⟨command_without_buffer s _ _, command_sample_outside s _ _, command_sample_inside s _ _⟩

/-- Settles O32: a copy onto the source itself writes nothing, any other fills the destination word by word. -/
theorem bufCopyDuplicatesTheSource : Obligations.BufCopyDuplicatesTheSource := by
  refine fun bd bs s => ⟨command_without_buffer s _ _, fun hcap heq => ?self, fun hcap hne => ?copies⟩
  case self => subst heq; exact exec_bufCopy_self hcap
  case copies =>
    refine ⟨_, exec_bufCopy_of_ne hcap hne, rfl, ?cap, fun a ha => ?copied, fun a ha => ?beyond,
      fun b hb => buf_fillBuf_of_ne s _ _ _ hb⟩
    case cap => rw [cap_advance, State.cap, buf_fillBuf_same]
    all_goals rw [sbWord_advance, sbWord_fillBuf_same]
    case copied => rw [if_pos ha]
    case beyond => rw [if_neg (Nat.not_lt.2 ha)]

end

section
/-! SUPPORT. The checks of a bind and of MODULATE, the words MODULATE writes, and the value of a stream bit
(42_modulator.md R110 to R113, 43_demodulator.md R120). -/

namespace Sys2Proof.Machine

section
variable {K : Type} (s effect : State K) {e : Order} (f : CmdFault) (rest : List (Bool × CmdFault)) {flag : Bool}

/-- The check that a flag, such as MOD_BOUND, is set. -/
theorem command_flag_clear (h : flag = false) : command s ((!flag, f) :: rest) effect = .next (raise f s) :=
  command_check_fails s effect f rest (by rw [h]; rfl)

theorem command_flag_set (h : flag = true) : command s ((!flag, f) :: rest) effect = command s rest effect :=
  command_check_passes s effect f rest (by rw [h]; rfl)

/-- A bind that requires another order than ORDER, with a mapper. -/
theorem command_bind_wrong_order (hmap : s.mapValid = true) (hany : e ≠ .code3) (horder : e ≠ s.order) :
    command s (bindChecks e s) effect = .next (raise .cfgWrongOrder s) :=
  (command_with_mapper s effect _ hmap).trans (command_check_fails s effect _ _ (by simp [hany, horder]))

/-- A bind that requires any order, or the order of the mapper. -/
theorem command_bind_right_order (hmap : s.mapValid = true) (horder : e = .code3 ∨ e = s.order) :
    command s (bindChecks e s) effect = .next (advance effect) :=
  (command_with_mapper s effect _ hmap).trans
    (command_check_passes s effect _ _ (by rcases horder with h | h <;> simp [h]))

end

/-- A bit of a stream as the number the byte's shift and mask give (00_scope.md R7). -/
theorem toNat_streamBit (y : Nat → Byte) (n p : Nat) :
    (streamBit y n p).toNat = if p < 8 * n then ((y (p / 8)).toNat >>> (7 - p % 8)) &&& 1 else 0 := by
  unfold streamBit
  split
  case isTrue hp =>
    rw [decide_eq_true hp, Bool.true_and, BitVec.getLsbD, Nat.toNat_testBit, Nat.and_one_is_mod,
      Nat.shiftRight_eq_div_pow]
  case isFalse hp => rw [decide_eq_false hp, Bool.false_and, Bool.toNat_false]

section
variable {K : Type} [Inhabited K] (s : State K) {nsym n : Nat}

theorem modulatedWord_inPhase (hn : n < nsym) : s.modulatedWord nsym n = (s.ctPoint (s.group n)).i :=
  if_pos hn

theorem modulatedWord_quadrature : s.modulatedWord nsym (nsym + n) = (s.ctPoint (s.group n)).q := by
  rw [State.modulatedWord, if_neg (by omega), Nat.add_sub_cancel_left]

/-- Sample `n` of the buffer MODULATE fills, word by word and read as a sample. -/
theorem modulated_sample {bd : BufId} (hn : n < nsym) :
    let t := s.fillBuf bd (2 * nsym) (2 * nsym) (s.modulatedWord nsym)
    t.sbWord bd n = (s.ctPoint (s.group n)).i ∧ t.sbWord bd (nsym + n) = (s.ctPoint (s.group n)).q ∧
      t.sample bd n = s.ctPoint (s.group n) := by
  intro t
  have hcap : t.cap bd = 2 * nsym := by rw [State.cap, buf_fillBuf_same]
  have hre : t.sbWord bd n = (s.ctPoint (s.group n)).i := by
    rw [sbWord_fillBuf_same, if_pos (by omega), modulatedWord_inPhase s hn]
  have him : t.sbWord bd (nsym + n) = (s.ctPoint (s.group n)).q := by
    rw [sbWord_fillBuf_same, if_pos (by omega), modulatedWord_quadrature]
  refine ⟨hre, him, ?_⟩
  rw [State.sample, hcap, Nat.mul_div_cancel_left _ Nat.two_pos, hre, him]

end

section
variable {bd : BufId} {s : State}

/-- A bound MODULATE has one length check in two parts: no symbols at all, or too many for a buffer. -/
theorem exec_modulate_bad_length (hbound : s.modBound = true)
    (hbad : s.symbolCount = 0 ∨ s.params.capMax < 2 * s.symbolCount) :
    exec (.modulate bd) s = .next (raise .boundsLength s) := by
  refine (command_flag_set s _ _ _ hbound).trans ?_
  by_cases hzero : s.symbolCount = 0
  · exact command_check_fails s _ _ _ (decide_eq_true hzero)
  · exact (command_check_passes s _ _ _ (decide_eq_false hzero)).trans
      (command_check_fails s _ _ _ (decide_eq_true (hbad.resolve_left hzero)))

theorem exec_modulate_fills (hbound : s.modBound = true) (hsome : s.symbolCount ≠ 0)
    (hfits : 2 * s.symbolCount ≤ s.params.capMax) :
    exec (.modulate bd) s = .next (advance
      (s.fillBuf bd (2 * s.symbolCount) (2 * s.symbolCount) (s.modulatedWord s.symbolCount))) :=
  (command_flag_set s _ _ _ hbound).trans
    ((command_check_passes s _ _ _ (decide_eq_false hsome)).trans
      (command_check_passes s _ _ _ (decide_eq_false (Nat.not_lt.2 hfits))))

end

end Sys2Proof.Machine
end

section
/-! The statements of the family 42_modulator.md. -/

open Sys2Proof Sys2Proof.Machine

/-- Settles O38: the length the statement writes out is the symbol count, and the filled buffer holds the in-phase
parts in its first half, the quadrature parts in its second. -/
theorem modulateMapsEveryGroup : Obligations.ModulateMapsEveryGroup := by
  refine fun bd s => ⟨command_flag_clear s _ _ _, exec_modulate_bad_length, fun hbound hsome hfits => ?maps⟩
  case maps =>
    refine ⟨_, exec_modulate_fills hbound hsome hfits, rfl, ?cap, fun n hn => modulated_sample s hn,
      fun a ha => ?beyond, fun b hb => buf_fillBuf_of_ne s _ _ _ hb⟩
    case cap => exact congrArg Buffer.cap (buf_fillBuf_same s bd _ _ _)
    case beyond => exact (sbWord_fillBuf_same s bd _ _ _ a).trans (if_neg (Nat.not_lt.2 ha))

/-- Settles O34: the two binds have the same checks, the mapper first and then the order. -/
theorem bindsCheckTheMapperThenTheOrder : Obligations.BindsCheckTheMapperThenTheOrder := fun _ s =>
  ⟨fun hmap => ⟨command_without_mapper s _ _ hmap, command_without_mapper s _ _ hmap⟩,
    fun hmap hany horder =>
      ⟨command_bind_wrong_order s _ hmap hany horder, command_bind_wrong_order s _ hmap hany horder⟩,
    fun hmap horder => ⟨command_bind_right_order s _ hmap horder, command_bind_right_order s _ hmap horder⟩⟩

/-- Settles O35: a group is a number of `bps` bits, each the bit of the stream the statement writes out. -/
theorem groupIsItsStreamBitsMsbFirst : Obligations.GroupIsItsStreamBitsMsbFirst := by
  refine fun s n => ⟨?sum, fromMsb_lt _ _⟩
  case sum =>
    rw [State.group, fromMsb]
    simp only [toNat_streamBit]

end

section
/-! SUPPORT. What the demodulator writes: the packed stream, the soft output, the bits sliced from it, the least
distances of R125, and the checks that the two soft-decision commands share (43_demodulator.md R123 to R129). -/

namespace Sys2Proof.Machine

section
variable {k n j : Nat}

/-- Stream position `n*k + j` lies in group `n` at place `j`, and inside a stream of `m` groups. -/
theorem group_position {m : Nat} (hn : n < m) (hj : j < k) :
    (n * k + j) / k = n ∧ (n * k + j) % k = j ∧ n * k + j < m * k := by
  obtain ⟨hdiv, hmod⟩ := (Nat.div_mod_unique (by omega)).2 ⟨(by ring : j + k * n = n * k + j), hj⟩
  refine ⟨hdiv, hmod, ?_⟩
  calc n * k + j < (n + 1) * k := by rw [Nat.succ_mul]; omega
    _ ≤ m * k := Nat.mul_le_mul_right k hn

end

section
variable {o : Order} {pos : Nat}

/-- The index subset of R125. -/
theorem mem_subset_iff {bit : Bool} {idx : Nat} :
    idx ∈ (List.range (points o)).filter (fun idx => idx.testBit pos == bit) ↔
      idx < points o ∧ idx.testBit pos = bit := by
  rw [List.mem_filter, List.mem_range, beq_iff_eq]

/-- Each of the two subsets has an index: `2^pos` for the bit 1, `0` for the bit 0. -/
theorem exists_index_with_bit (bit : Bool) (hpos : pos < bps o) : ∃ idx < points o, idx.testBit pos = bit := by
  cases bit with
  | true => exact ⟨2 ^ pos, Nat.pow_lt_pow_right Nat.one_lt_two hpos, Nat.testBit_two_pow_self⟩
  | false => exact ⟨0, Nat.two_pow_pos _, Nat.zero_testBit _⟩

end

section
variable {K : Type} {k : Nat} {v : List Nat} {s : State K}

theorem packedBit_beyond {p : Nat} (hp : v.length * k ≤ p) : packedBit k v p = false := by
  rw [packedBit, decide_eq_false (Nat.not_lt.2 hp), Bool.false_and]

/-- The output stream after `pack`, at every position. -/
theorem streamBit_pack (p : Nat) :
    streamBit (pack k v s).boutByte (pack k v s).boutLen p = packedBit k v p := by
  have hbytes : ∀ a < (pack k v s).boutLen, (pack k v s).boutByte a = packedByte k v a := fun a ha =>
    (boutByte_pack k v s a).trans (if_pos ha)
  rw [streamBit_congr hbytes]
  by_cases hp : p < 8 * (pack k v s).boutLen
  case pos => exact streamBit_packedByte k v _ p hp
  case neg =>
    have hlen : (pack k v s).boutLen = (v.length * k + 7) / 8 := rfl
    rw [packedBit_beyond (by omega), streamBit, decide_eq_false hp, Bool.false_and]

theorem boutByte_pack_beyond {a : Nat} (ha : (pack k v s).boutLen ≤ a) :
    (pack k v s).boutByte a = s.boutByte a :=
  (boutByte_pack k v s a).trans (if_neg (Nat.not_lt.2 ha))

/-- The checks of DEMOD_LLR and LLR_BIT after the binding: the buffer and the channel must be constructed. -/
theorem command_soft_unready {b : BufId} (effect : State K) (rest : List (Bool × CmdFault))
    (hbound : s.demBound = true) (h : s.cap b = 0 ∨ s.chValid = false) :
    command s ((!s.demBound, .cfgNoMapper) :: (decide (s.cap b = 0), .notConstructed) ::
      (!s.chValid, .notConstructed) :: rest) effect = .next (raise .notConstructed s) := by
  refine (command_flag_set s _ _ _ hbound).trans ?_
  by_cases hcap : s.cap b = 0
  · exact command_without_buffer s _ _ hcap
  · exact (command_with_buffer s _ _ hcap).trans (command_flag_clear s _ _ _ (h.resolve_left hcap))

theorem command_soft_ready {b : BufId} (effect : State K) (rest : List (Bool × CmdFault))
    (hbound : s.demBound = true) (hcap : s.cap b ≠ 0) (hch : s.chValid = true) :
    command s ((!s.demBound, .cfgNoMapper) :: (decide (s.cap b = 0), .notConstructed) ::
      (!s.chValid, .notConstructed) :: rest) effect = command s rest effect :=
  (command_flag_set s _ _ _ hbound).trans
    ((command_with_buffer s _ _ hcap).trans (command_flag_set s _ _ _ hch))

end

section
variable {K : Type} [Field K] [LinearOrder K] [Inhabited K] (s : State K) (b : BufId)

@[simp] theorem hardDecisions_length : (s.hardDecisions b).length = s.cap b / 2 := by
  rw [State.hardDecisions, List.length_map, List.length_range]

theorem hardDecisions_getElem {n : Nat} (hn : n < (s.hardDecisions b).length) :
    (s.hardDecisions b)[n] = s.nearest (s.sample b n) := by
  simp only [State.hardDecisions, List.getElem_map, List.getElem_range]

/-- Entry `n*k + j` of the soft output is the LLR of sample `n` at index bit `k-1-j` (43_demodulator.md R126). -/
theorem llrEntry_softOutput {n j : Nat} (hn : n < s.cap b / 2) (hj : j < bps s.order) :
    (softOutput b s).llrEntry (n * bps s.order + j) = s.llrOf (s.sample b n) (bps s.order - 1 - j) := by
  obtain ⟨hdiv, hmod, hlt⟩ := group_position hn hj
  rw [State.llrEntry, softOutput, Memory.read_fill, if_pos hlt, Option.getD_some, State.softEntry, hdiv, hmod]

theorem llrEntry_softOutput_beyond {a : Nat} (ha : (softOutput b s).llrLen ≤ a) :
    (softOutput b s).llrEntry a = s.llrEntry a := by
  have hread : (softOutput b s).llr.read a = s.llr.read a :=
    (Memory.read_fill ..).trans (if_neg (Nat.not_lt.2 ha))
  rw [State.llrEntry, hread]; rfl

@[simp] theorem slicedIndices_length (nsym : Nat) : (s.slicedIndices nsym).length = nsym := by
  rw [State.slicedIndices, List.length_map, List.length_range]

/-- Slicing entry by entry and packing the indices puts the sign of entry `p` at stream position `p`
(43_demodulator.md R127, R128). -/
theorem packedBit_slicedIndices {nsym p : Nat} (hp : p < nsym * bps s.order) :
    packedBit (bps s.order) (s.slicedIndices nsym) p = decide (s.llrEntry p < 0) := by
  have hk : 0 < bps s.order := Nat.pos_of_lt_mul_left hp
  have hn : p / bps s.order < (s.slicedIndices nsym).length := by
    rw [slicedIndices_length]; exact (Nat.div_lt_iff_lt_mul hk).2 hp
  have hj : p % bps s.order < bps s.order := Nat.mod_lt p hk
  have hbit := packedBit_at _ _ hn hj
  simp only [State.slicedIndices, List.getElem_map, List.getElem_range, Nat.div_add_mod'] at hbit
  rw [testBit_fromMsb _ _ (by omega), Nat.sub_sub_self (by omega), Nat.div_add_mod'] at hbit
  exact hbit

section
variable {s} {x : Point K} {pos : Nat} {bit : Bool}

theorem subsetDist_attained (hpos : pos < bps s.order) :
    ∃ idx < points s.order, idx.testBit pos = bit ∧ s.subsetDist x pos bit = dist2 x (s.ctPoint idx) := by
  obtain ⟨i, hi⟩ := exists_index_with_bit bit hpos
  obtain ⟨idx, hidx, hmin⟩ := minOver_attained (fun idx => dist2 x (s.ctPoint idx))
    (List.ne_nil_of_mem (mem_subset_iff.2 hi))
  obtain ⟨hlt, hbit⟩ := mem_subset_iff.1 hidx
  exact ⟨idx, hlt, hbit, hmin⟩

theorem subsetDist_le {idx : Nat} (hidx : idx < points s.order) (hbit : idx.testBit pos = bit) :
    s.subsetDist x pos bit ≤ dist2 x (s.ctPoint idx) :=
  minOver_le (fun idx => dist2 x (s.ctPoint idx)) (mem_subset_iff.2 ⟨hidx, hbit⟩)

end

end

theorem flooredSigma2_eq_max {K : Type} [Field K] [LinearOrder K] (s : State K) :
    s.flooredSigma2 = max (s.sigma * s.sigma) s.params.sigma2Floor := by
  rw [State.flooredSigma2, max_def_lt]

/-- A bound DEMOD checks the buffer alone. -/
theorem exec_demod_bound {bs : BufId} {s : State} (hbound : s.demBound = true) :
    exec (.demod bs) s =
      command s [(decide (s.cap bs = 0), .notConstructed)] (pack (bps s.order) (s.hardDecisions bs) s) :=
  command_flag_set s _ _ _ hbound

end Sys2Proof.Machine
end

section
/-! The statements of the family 43_demodulator.md. -/

open Sys2Proof Sys2Proof.Machine

/-- Settles O39, by what the search over the indices of the map returns. -/
theorem nearestIsTheFirstOfLeastDistance : Obligations.NearestIsTheFirstOfLeastDistance := by
  refine ⟨fun x p => ?distance, fun s x => ?search⟩
  case distance => rw [dist2, pow_two, pow_two]
  case search =>
    have hlt : s.nearest x < points s.order := nearestOf_lt _ (Nat.two_pow_pos _)
    have hle := fun j (hj : j < points s.order) => nearestOf_le (fun idx => dist2 x (s.ctPoint idx)) hj
    have hfirst := fun j (hj : j < s.nearest x) => nearestOf_first (fun idx => dist2 x (s.ctPoint idx)) hj
    exact ⟨hlt, hle, hfirst⟩

/-- Settles O40: the output stream is the stream of the packed bits, which hold the values' bits and are 0 beyond
them. -/
theorem packWritesTheBitsMsbFirst : Obligations.PackWritesTheBitsMsbFirst := fun k v _ =>
  ⟨rfl, fun _ hn _ hj => (streamBit_pack _).trans (packedBit_at k v hn hj),
    fun p hp => (streamBit_pack p).trans (packedBit_beyond hp), fun _ => boutByte_pack_beyond, rfl⟩

/-- Settles O41, from the packing of O40 with the decisions of all samples as its values. -/
theorem demodPacksTheNearestIndices : Obligations.DemodPacksTheNearestIndices := by
  refine fun bs s => ⟨command_flag_clear s _ _ _, fun hbound hcap => ?unmade, fun hbound hcap => ?packs⟩
  case unmade => exact (exec_demod_bound hbound).trans (command_without_buffer s _ _ hcap)
  case packs =>
    obtain ⟨hlen, hbits, hpad, hbeyond, -⟩ := packWritesTheBitsMsbFirst (bps s.order) (s.hardDecisions bs) s
    simp only [hardDecisions_length, hardDecisions_getElem] at hlen hbits hpad
    exact ⟨_, (exec_demod_bound hbound).trans (command_with_buffer s _ _ hcap), rfl, hlen, hbits, hpad, hbeyond⟩

/-- Settles O42, with the least distances to the two subsets for `d0` and `d1`. -/
theorem llrIsTheScaledDistanceDifference : Obligations.LlrIsTheScaledDistanceDifference := fun s x pos hpos =>
  ⟨s.subsetDist x pos false, s.subsetDist x pos true,
    subsetDist_attained hpos, fun _ => subsetDist_le, subsetDist_attained hpos, fun _ => subsetDist_le,
    by rw [State.llrOf, flooredSigma2_eq_max]⟩

/-- Settles O43: both forms leave the same soft output, and the packing of the sliced indices puts the sign of each
entry at the entry's own stream position. -/
theorem demodLlrWritesSoftBitsInStreamOrder : Obligations.DemodLlrWritesSoftBitsInStreamOrder := by
  refine fun bs h s => ⟨command_flag_clear s _ _ _, command_soft_unready _ _, fun hbound hcap hch => ?writes⟩
  have hentries := fun n (hn : n < s.cap bs / 2) j (hj : j < bps s.order) => llrEntry_softOutput s bs hn hj
  have hothers := fun a (ha : (softOutput bs s).llrLen ≤ a) => llrEntry_softOutput_beyond s bs ha
  cases h with
  | false =>
    exact ⟨_, command_soft_ready _ _ hbound hcap hch, rfl, rfl, hentries, hothers, fun _ => ⟨rfl, rfl⟩, nofun⟩
  | true =>
    refine ⟨_, command_soft_ready _ _ hbound hcap hch, rfl, rfl, hentries, hothers, nofun,
      fun _ => ⟨?length, fun p hp => ?sliced, fun p hp => ?padding, fun a ha => boutByte_pack_beyond ha⟩⟩
    case length => exact congrArg (fun n => (n * bps s.order + 7) / 8) (slicedIndices_length (softOutput bs s) _)
    case sliced => exact (streamBit_pack p).trans (packedBit_slicedIndices (softOutput bs s) hp)
    case padding => exact (streamBit_pack p).trans (packedBit_beyond (by rw [slicedIndices_length]; exact hp))

/-- Settles O44: the checks DEMOD_LLR has too, then the sample index, then the bit position. -/
theorem llrBitPutsOneLlrInQr : Obligations.LlrBitPutsOneLlrInQr := by
  refine fun bs idx pos s => ⟨command_flag_clear s _ _ _, command_soft_unready _ _,
    fun hbound hcap hch hbad => ?bounds, fun hbound hch hidx hpos => ?reads⟩
  case bounds =>
    refine (command_soft_ready _ _ hbound hcap hch).trans ?_
    by_cases hidx : s.cap bs / 2 ≤ idx.toNat
    · exact command_check_fails s _ _ _ (decide_eq_true hidx)
    · exact (command_check_passes s _ _ _ (decide_eq_false hidx)).trans
        (command_check_fails s _ _ _ (decide_eq_true (hbad.resolve_left hidx)))
  case reads =>
    exact (command_soft_ready _ _ hbound (by omega) hch).trans
      ((command_check_passes s _ _ _ (decide_eq_false (Nat.not_le.2 hidx))).trans
        (command_check_passes s _ _ _ (decide_eq_false (Nat.not_le.2 hpos))))

end

section
/-! SUPPORT. The noise cache after a regeneration, the values draws hand out, the buffer CH_TXB fills, and the value
of CH_LOGQ (44_channel.md R142 to R148). -/

namespace Sys2Proof.Machine

section
variable {K : Type} [Field K] [LinearOrder K] [Inhabited K]

/-- A regeneration writes the oracle's answer over the cache and nothing beyond it (44_channel.md R142). -/
theorem nzValue_regenerate (sigma : K) (s : State K) (a : Nat) :
    (regenerate sigma s).nzValue a = if a < s.params.noiseLen then s.noiseGen sigma a else s.nzValue a := by
  split
  case isTrue ha => rw [State.nzValue, nz_read_regenerate sigma s ha, Option.getD_some]
  case isFalse ha =>
    have hread : (regenerate sigma s).nz.read a = s.nz.read a := (Memory.read_fill ..).trans (if_neg ha)
    rw [State.nzValue, hread]; rfl

theorem logQuality_zero : logQuality (0 : K) = .posInf := if_pos rfl

theorem logQuality_of_ne_zero {sigma : K} (h : sigma ≠ 0) :
    logQuality sigma = .fin (10 * log10 (1 / (sigma * sigma))) := if_neg h

/-- At sigma = 1 the quality is 0 dB, by the law of `Log10` (00_scope.md R5). -/
theorem logQuality_one : logQuality (1 : K) = .fin 0 := by
  rw [logQuality_of_ne_zero one_ne_zero, mul_one, div_one, log10_one, mul_zero]

end

section
variable {K : Type} [Field K] {src : Nat → K} {noise : List K} {half n : Nat}

theorem noisyWord_inPhase (hn : n < half) : noisyWord src noise half n = src n + noise.getD (2 * n) 0 := by
  rw [noisyWord, if_pos hn]

theorem noisyWord_quadrature :
    noisyWord src noise half (half + n) = src (half + n) + noise.getD (2 * n + 1) 0 := by
  rw [noisyWord, if_neg (by omega), Nat.add_sub_cancel_left]

end

section
variable {K : Type} [Field K] [Inhabited K] {bd bs : BufId} {s : State K}

/-- CH_TXS on the whole state: two draws move the cursor by two (44_channel.md R145). -/
theorem addNoise_eq :
    addNoise s = { s with
      di := s.di + s.nzValue s.cursor
      dq := s.dq + s.nzValue ((s.cursor + 1) % s.params.noiseLen)
      cursor := (s.cursor + 2) % s.params.noiseLen } := by
  have hcursor : (draw (draw s).2).2.cursor = (s.cursor + 2) % s.params.noiseLen := Nat.mod_add_mod ..
  rw [← hcursor]; rfl

theorem draws_getD {n t : Nat} (hcur : s.cursor < s.params.noiseLen) (ht : t < n) :
    (draws n s).1.getD t 0 = s.nzValue ((s.cursor + t) % s.params.noiseLen) := by
  rw [List.getD_eq_getElem?_getD, draws_value hcur ht, Option.getD_some]

/-- A transmit of an even buffer fills the destination to the source's capacity and draws once a word
(44_channel.md R146). -/
theorem transmit_eq_fillBuf (heven : s.cap bs % 2 = 0) (hcur : s.cursor < s.params.noiseLen) :
    transmit bd bs s =
      { s with cursor := (s.cursor + s.cap bs) % s.params.noiseLen }.fillBuf bd (s.cap bs) (s.cap bs)
        (noisyWord (s.sbWord bs) (draws (s.cap bs) s).1 (s.cap bs / 2)) := by
  have hwords : 2 * (s.cap bs / 2) = s.cap bs := Nat.mul_div_cancel' (Nat.dvd_of_mod_eq_zero heven)
  simp only [transmit, hwords, draws_state _ s hcur]

/-- Word `a` of the destination after a transmit. -/
theorem sbWord_transmit (heven : s.cap bs % 2 = 0) (hcur : s.cursor < s.params.noiseLen) (a : Nat) :
    (transmit bd bs s).sbWord bd a =
      if a < s.cap bs then noisyWord (s.sbWord bs) (draws (s.cap bs) s).1 (s.cap bs / 2) a
      else s.sbWord bd a := by
  rw [transmit_eq_fillBuf heven hcur]
  exact sbWord_fillBuf_same ..

/-- Sample `n` of the destination: the source's sample with draws `2n` and `2n + 1` (44_channel.md R146). -/
theorem transmitted_sample (heven : s.cap bs % 2 = 0) (hcur : s.cursor < s.params.noiseLen) {n : Nat}
    (hn : n < s.cap bs / 2) :
    (transmit bd bs s).sbWord bd n =
        s.sbWord bs n + s.nzValue ((s.cursor + 2 * n) % s.params.noiseLen) ∧
      (transmit bd bs s).sbWord bd (s.cap bs / 2 + n) =
        s.sbWord bs (s.cap bs / 2 + n) + s.nzValue ((s.cursor + (2 * n + 1)) % s.params.noiseLen) := by
  constructor <;> rw [sbWord_transmit heven hcur, if_pos (by omega)]
  · rw [noisyWord_inPhase hn, draws_getD hcur (by omega)]
  · rw [noisyWord_quadrature, draws_getD hcur (by omega)]

/-- What a transmit leaves beside the destination's words, for an even source (44_channel.md R146). -/
theorem transmit_frame_of_even (heven : s.cap bs % 2 = 0) (hcur : s.cursor < s.params.noiseLen) :
    transmit bd bs s = { s with
        bufs := (transmit bd bs s).bufs, cursor := (s.cursor + s.cap bs) % s.params.noiseLen } ∧
      (transmit bd bs s).cap bd = s.cap bs ∧ ∀ b, b ≠ bd → (transmit bd bs s).buf b = s.buf b := by
  rw [transmit_eq_fillBuf heven hcur]
  exact ⟨rfl, by rw [State.cap, buf_fillBuf_same], fun b hb => buf_fillBuf_of_ne _ _ _ _ hb⟩

end

section
variable {bd bs : BufId} {s : State}

/-- CH_TXB between two buffers needs a channel and a source (44_channel.md R146). -/
theorem exec_chTxb_unready (hne : bd ≠ bs) (h : s.chValid = false ∨ s.cap bs = 0) :
    exec (.chTxb bd bs) s = .next (raise .notConstructed s) := by
  refine (command_check_passes s _ _ _ (decide_eq_false hne)).trans ?_
  by_cases hch : s.chValid = false
  · exact command_flag_clear s _ _ _ hch
  · exact (command_flag_set s _ _ _ (Bool.eq_true_of_not_eq_false hch)).trans
      (command_without_buffer s _ _ (h.resolve_left hch))

theorem exec_chTxb_transmits (hne : bd ≠ bs) (hch : s.chValid = true) (hcap : s.cap bs ≠ 0) :
    exec (.chTxb bd bs) s = .next (advance (transmit bd bs s)) :=
  (command_check_passes s _ _ _ (decide_eq_false hne)).trans
    ((command_flag_set s _ _ _ hch).trans (command_with_buffer s _ _ hcap))

end

end Sys2Proof.Machine
end

section
/-! The statements of the family 44_channel.md. -/

open Sys2Proof Sys2Proof.Machine

/-- Settles O48: draw `t` reads the cache at the cursor plus `t`, and a regeneration puts the cursor at 0. -/
theorem drawsReuseTheCacheCyclically : Obligations.DrawsReuseTheCacheCyclically := by
  refine ⟨fun s => rfl, fun n s hcur => ⟨draws_state n s hcur, ?wraps, fun t => draws_value hcur⟩,
    fun n s sigma hlen t ht => ?regenerated⟩
  case wraps =>
    rw [draws_state n s hcur]
    exact Nat.mod_lt _ (Nat.zero_lt_of_lt hcur)
  case regenerated =>
    have hcur : (regenerate sigma s).cursor < (regenerate sigma s).params.noiseLen := hlen
    have hstart : (regenerate sigma s).cursor + t = t := Nat.zero_add t
    exact (draws_value hcur ht).trans (by rw [hstart]; rfl)

/-- Settles O51: the checks in their order, then the words of the filled destination, each with its own draw. -/
theorem chTxbAddsTwoDrawsToEverySample : Obligations.ChTxbAddsTwoDrawsToEverySample := by
  refine fun bd bs s => ⟨fun heq => ?illegal, exec_chTxb_unready, fun hne hch hcap heven hcur => ?transmits⟩
  case illegal => exact command_check_fails s _ _ _ (decide_eq_true heq)
  case transmits =>
    obtain ⟨hframe, hcapDest, hothers⟩ := transmit_frame_of_even (bd := bd) heven hcur
    refine ⟨_, exec_chTxb_transmits hne hch hcap, congrArg advance hframe, hcapDest,
      fun n hn => transmitted_sample heven hcur hn, fun a ha => ?beyond, hothers⟩
    case beyond => exact (sbWord_transmit heven hcur a).trans (if_neg (Nat.not_lt.2 ha))

/-- Settles O47: the effect is a regeneration at DI, and at DI = 0 the oracle's one law makes the cache zero. -/
theorem chSetRegeneratesTheNoiseCache : Obligations.ChSetRegeneratesTheNoiseCache := by
  refine fun s => ⟨fun hneg => ?illegal, fun hdi => ?regenerates⟩
  case illegal => exact command_check_fails s _ _ _ (decide_eq_true hneg)
  case regenerates =>
    have hcache : ∀ a < s.params.noiseLen, (regenerate s.di s).nzValue a = s.noiseGen s.di a := fun a ha =>
      (nzValue_regenerate s.di s a).trans (if_pos ha)
    refine ⟨_, command_check_passes s _ _ _ (decide_eq_false (not_lt.2 hdi)), rfl, hcache,
      fun a ha => (nzValue_regenerate s.di s a).trans (if_neg (Nat.not_lt.2 ha)), fun hzero a ha => ?silent⟩
    case silent =>
      refine (hcache a ha).trans ?_
      rw [hzero, noiseGen_zero]

/-- Settles O50, by the two draws of CH_TXS on the whole state. -/
theorem chTxsAddsTwoDraws : Obligations.ChTxsAddsTwoDraws := by
  refine fun s => ⟨command_flag_clear s _ _ _, fun hch => ?adds⟩
  case adds =>
    refine (command_flag_set s _ _ _ hch).trans ?_
    rw [addNoise_eq]; rfl

/-- Settles O52, by the value of the quality at sigma 0, at sigma 1 and at any other sigma. -/
theorem channelQualityIsReadInQr : Obligations.ChannelQualityIsReadInQr := by
  refine fun s => ⟨fun hch => ⟨command_flag_clear s _ _ _ hch, command_flag_clear s _ _ _ hch⟩, fun hch => ?reads⟩
  have logq {q : NumX} (hq : logQuality s.sigma = q) : exec .chLogq s = .next { s with qr := q, pc := s.pc + 1 } := by
    subst hq; exact command_flag_set s _ _ _ hch
  exact ⟨command_flag_set s _ _ _ hch, fun hzero => logq (hzero ▸ logQuality_zero),
    fun hone => logq (hone ▸ logQuality_one), fun hne => logq (logQuality_of_ne_zero hne)⟩

end


section
/-! SUPPORT. The four outcomes of a step, each under the condition it is taken in (45_control.md R160). -/

namespace Sys2Proof.Machine

variable {s : State}

/-- Outside RUNNING the core takes no step, which is written as one that keeps the state (log entry 6). -/
theorem step_outside_run (hr : s.run ≠ .running) : step s = .next s := by
  unfold step
  split
  case h_1 hrunning => exact absurd hrunning hr
  all_goals rfl

theorem step_past_end (hr : s.run = .running) (hpc : s.params.cmSize ≤ s.pc) :
    step s = .next (raise .illegal s) := by
  have hend : pastEnd s = true := decide_eq_true hpc
  simp only [step, hr, hend, ↓reduceIte, takeIllegal]

theorem step_illegal_word (hr : s.run = .running) (hpc : s.pc < s.params.cmSize) {r : Reject}
    (hword : fetch s = .error r) : step s = .next (raise .illegal s) := by
  have hinside : pastEnd s = false := decide_eq_false (Nat.not_le.2 hpc)
  simp only [step, hr, hinside, Bool.false_eq_true, ↓reduceIte, hword, takeIllegal]

theorem step_executes (hr : s.run = .running) (hpc : s.pc < s.params.cmSize) {i : Instr}
    (hword : fetch s = .ok i) : step s = exec i s := by
  have hinside : pastEnd s = false := decide_eq_false (Nat.not_le.2 hpc)
  simp only [step, hr, hinside, Bool.false_eq_true, ↓reduceIte, hword]

end Sys2Proof.Machine
end

section
/-! The statements of the family 45_control.md. -/

open Sys2Proof Sys2Proof.Machine

/-- Settles O5, by the outcomes of a step past the end of CM, at an illegal word, at a command and outside a run. -/
theorem stepFetchesDecodesAndExecutes : Obligations.StepFetchesDecodesAndExecutes :=
  fun _ => ⟨step_past_end,
    fun hr hpc => ⟨fun _ hword => step_illegal_word hr hpc hword, fun _ hword => step_executes hr hpc hword⟩,
    step_outside_run⟩

/-- Settles O53: HALT makes no check, and its whole meaning is the write to RUN (`execHalt`). -/
theorem haltEndsTheRunInPlace : Obligations.HaltEndsTheRunInPlace :=
  fun _ => rfl

/-- Settles O54, by the two cases of START: it begins a run from IDLE and DONE, and does nothing otherwise. -/
theorem startBeginsARunAtZero : Obligations.StartBeginsARunAtZero := by
  intro s
  rw [hostMove_start]
  obtain ⟨hready, hbegins⟩ | ⟨hnot, hkeeps⟩ := hostStart_cases s
  · refine ⟨fun _ => congrArg Host.Outcome.next hbegins, fun hother => ?_⟩
    rcases hready with hr | hr <;> simp [hr] at hother
  · exact ⟨fun hready => absurd hready hnot, fun _ => congrArg Host.Outcome.next hkeeps⟩

end

section
/-! SUPPORT. The code of a fault as ERR holds it, and what the host can do to a faulted core (60_exceptions.md
R170, R179). -/

namespace Sys2Proof.Machine

/-- The reserved code of 60_exceptions.md R170 is no content of ERR. -/
theorem errCode_ne_seven (e : Option CmdFault) : (errCode e).setWidth 32 ≠ (7 : Word) := by
  cases e with
  | none => decide
  | some f => cases f <;> decide

/-- START is ignored in FAULTED. -/
theorem hostStart_of_faulted {s : State} (hr : s.run = .faulted) : hostStart s = s := by
  obtain ⟨hready, -⟩ | ⟨-, hkeeps⟩ := hostStart_cases s
  · simp [hr] at hready
  · exact hkeeps

/-- A write of the host to an element or to a data register leaves the control registers. -/
theorem HostWrites.keeps_control {h : HostAction} {s t : State} (hw : HostWrites s h t) :
    t.run = s.run ∧ t.pc = s.pc ∧ t.err = s.err ∧ t.epc = s.epc := by
  cases hw <;> exact ⟨rfl, rfl, rfl, rfl⟩

end Sys2Proof.Machine
end

section
/-! The statements of the family 60_exceptions.md. -/

open Sys2Proof Sys2Proof.Machine

/-- Settles O7: of the three ways a command can leave the control registers, fault entry alone ends in FAULTED. -/
theorem faultingCommandDoesOnlyFaultEntry : Obligations.FaultingCommandDoesOnlyFaultEntry := by
  refine ⟨fun _ _ => rfl, fun i s t hr hx hfaulted => ?_⟩
  obtain ⟨f, hraise⟩ | ⟨-, hrun, -⟩ | ⟨-, rfl⟩ := exec_control hx
  · exact ⟨f, hraise⟩
  · rw [hrun, hr] at hfaulted; contradiction
  · contradiction

/-- Settles O9: the view of ERR is the code of the fault raised, that of EPC is the PC it was raised at. -/
theorem faultCodesAreReadInErrAndEpc : Obligations.FaultCodesAreReadInErrAndEpc := by
  refine ⟨fun s => ⟨rfl, rfl, rfl, rfl, rfl, rfl, fun _ => rfl⟩, fun s => ⟨fun hnone => ?none, fun hseven => ?seven⟩⟩
  case none =>
    simp only [regView, hnone]
    rfl
  case seven => exact errCode_ne_seven s.err (RegVal.u32.inj hseven)

/-- Settles O10, by all that a move of the host can do: in FAULTED, START does nothing, and a write leaves RUN,
ERR and EPC. -/
theorem faultedCoreStaysUntilReset : Obligations.FaultedCoreStaysUntilReset := by
  intro s hr
  have hstart : hostStart s = s := hostStart_of_faulted hr
  refine ⟨step_outside_run (by simp [hr]), (hostMove_start s).trans (congrArg _ hstart), fun h t hne hm => ?moves,
    ⟨_, hostMove_reset s, rfl, rfl⟩⟩
  obtain ⟨hreset, -⟩ | ⟨-, rfl⟩ | rfl | ⟨-, hw⟩ := hostMove_cases hm
  · exact absurd hreset hne
  · rw [hstart]; exact ⟨hr, rfl, rfl⟩
  · exact ⟨hr, rfl, rfl⟩
  · obtain ⟨hrun, -, herr, hepc⟩ := hw.keeps_control
    exact ⟨hrun.trans hr, herr, hepc⟩

end

section
/-! SUPPORT. The footprint of a host write, and START during a run (70_reset_and_hazards.md R204). -/

namespace Sys2Proof.Machine

/-- A host write of an element or of a data register writes one of CM, BIN, GT, BIN_LEN, DI and DQ. -/
theorem HostWrites.eq_footprint {h : HostAction} {s t : State} (hw : HostWrites s h t) :
    t = { s with cm := t.cm, bin := t.bin, binLen := t.binLen, gt := t.gt, di := t.di, dq := t.dq } := by
  cases hw <;> rfl

/-- START is ignored during a run. -/
theorem hostStart_of_running {s : State} (hr : s.run = .running) : hostStart s = s := by
  obtain ⟨hready, -⟩ | ⟨-, hkeeps⟩ := hostStart_cases s
  · simp [hr] at hready
  · exact hkeeps

end Sys2Proof.Machine
end

section
/-! The statements of the family 70_reset_and_hazards.md. -/

open Sys2Proof Sys2Proof.Machine

/-- Settles O22, by all that a move of the host other than RESET can do: START writes PC and RUN and is ignored
during a run, and a write of an element or of a data register needs a core that is not running. -/
theorem hostWritesOnlyWhatItMay : Obligations.HostWritesOnlyWhatItMay := by
  intro h s t hm hne
  obtain ⟨hreset, -⟩ | ⟨hstart, rfl⟩ | rfl | ⟨hr, hw⟩ := hostMove_cases hm
  · exact absurd hreset hne
  · refine ⟨?_, hostStart_of_running, fun _ => hstart, fun _ => hstart⟩
    obtain ⟨-, e⟩ | ⟨-, e⟩ := hostStart_cases s <;> rw [e]
  · exact ⟨rfl, fun _ => rfl, fun hpc => absurd rfl hpc, fun hrun => absurd rfl hrun⟩
  · obtain ⟨hrun, hpc, -, -⟩ := hw.keeps_control
    refine ⟨?_, fun hrunning => absurd hrunning hr, fun hpc' => absurd hpc hpc', fun hrun' => absurd hrun hrun'⟩
    exact hw.eq_footprint.trans (by rw [hpc, hrun])

end

section
/-! SUPPORT. Each part of the machine invariant is kept by every command, and the whole of it by every step
(10_state.md R14 to R26): a part can change only under the commands whose footprint holds one of its registers. -/

namespace Sys2Proof.Machine

section
variable {α : Type} {m : Memory α} {size : Nat}

theorem Memory.Ok.write (h : m.Ok size) {a : Nat} (ha : a < size) (v : α) : Memory.Ok (m.write a v) size :=
  ⟨Memory.write_wf h.1 a v, Memory.write_below h.2 ha v⟩

theorem Memory.Ok.fill (h : m.Ok size) {n : Nat} (hn : n ≤ size) (f : Nat → α) : Memory.Ok (m.fill n f) size :=
  ⟨Memory.fill_wf h.1 n f, Memory.fill_below h.2 hn f⟩

theorem Memory.Ok.forgetBelow (h : m.Ok size) (n : Nat) : Memory.Ok (m.forgetBelow n) size :=
  ⟨Memory.forgetBelow_wf h.1 n, Memory.forgetBelow_below h.2 n⟩

theorem Memory.read_fill_of_lt (m : Memory α) {n a : Nat} (ha : a < n) (f : Nat → α) :
    (m.fill n f).read a = some (f a) :=
  (Memory.read_fill m n a f).trans (if_pos ha)

theorem Memory.isSome_read_fill (m : Memory α) {n a : Nat} (ha : a < n) (f : Nat → α) :
    ((m.fill n f).read a).isSome = true :=
  Option.isSome_of_eq_some (Memory.read_fill_of_lt m ha f)

end

theorem bps_le_six (o : Order) : bps o ≤ 6 := by cases o <;> decide

theorem points_le (o : Order) : points o ≤ 64 := by cases o <;> decide

/-- Checks that all pass, taken apart one at a time. -/
theorem firstFault_cons_eq_none {c : Bool} {f : CmdFault} {rest : List (Bool × CmdFault)}
    (h : firstFault ((c, f) :: rest) = none) : c = false ∧ firstFault rest = none := by
  cases c
  · exact ⟨rfl, h⟩
  · cases h

/-- What holds after fault entry, and after the effect of a command whose checks pass, holds after the command. -/
theorem command_establishes {P : State → Prop} {s t effect : State} {checks : List (Bool × CmdFault)}
    (h : command s checks effect = .next t) (hraise : ∀ f, P (raise f s))
    (hpass : firstFault checks = none → P (advance effect)) : P t := by
  obtain ⟨f, -, rfl⟩ | ⟨hf, rfl⟩ := command_cases h
  · exact hraise f
  · exact hpass hf

section
variable {i : Instr} {s t : State}

/-- Only a running core inside CM executes a command, so PC advances to the end of CM at most. -/
theorem exec_keeps_controlOk (h : exec i s = .next t) (hr : s.run = .running) (hpc : s.pc < s.params.cmSize)
    (hs : s.ControlOk) : t.ControlOk := by
  obtain ⟨-, hepc, herr⟩ := hs
  obtain ⟨hparams, -⟩ := exec_keeps_host_owned h
  rw [State.ControlOk, hparams]
  obtain ⟨f, rfl⟩ | ⟨-, hrun', hpc', herr', hepc'⟩ | ⟨-, rfl⟩ := exec_control h
  · exact ⟨hpc.le, hpc.le, by simp⟩
  · rw [hrun', hpc', herr', hepc']
    exact ⟨hpc, hepc, herr⟩
  · exact ⟨hpc.le, hepc, by simpa [hr] using herr⟩

theorem mapValid_of_passes {f : CmdFault} {rest : List (Bool × CmdFault)}
    (h : firstFault ((!s.mapValid, f) :: rest) = none) : s.mapValid = true := by
  obtain ⟨hmap, -⟩ := firstFault_cons_eq_none h
  simpa using hmap

/-- MAP_INIT writes the whole default map of its order, and MAP_INSTALL, MOD_BIND and DEM_BIND need a mapper. -/
theorem exec_keeps_mapperOk (h : exec i s = .next t) (hs : s.MapperOk) : t.MapperOk := by
  have ⟨horder, hmod, hdem, hcustom, hwritten, hdefault⟩ := hs
  cases i with
  | mapInit o =>
    refine command_establishes h (fun _ => hs) fun hpass => ?_
    have ho : o ≠ .code3 := by simpa using hpass
    exact ⟨iff_of_true rfl ho, nofun, nofun, nofun, fun _ idx hidx => Memory.isSome_read_fill _ hidx _,
      fun _ _ idx hidx => Memory.read_fill_of_lt _ hidx _⟩
  | mapInstall =>
    refine command_establishes h (fun _ => hs) fun hpass => ?_
    exact ⟨horder, hmod, hdem, fun _ => mapValid_of_passes hpass,
      fun _ idx hidx => Memory.isSome_read_fill _ hidx _, fun _ hdef => nomatch hdef⟩
  | modBind e =>
    refine command_establishes h (fun _ => hs) fun hpass => ?_
    exact ⟨horder, fun _ => mapValid_of_passes hpass, hdem, hcustom, hwritten, hdefault⟩
  | demBind e =>
    refine command_establishes h (fun _ => hs) fun hpass => ?_
    exact ⟨horder, hmod, fun _ => mapValid_of_passes hpass, hcustom, hwritten, hdefault⟩
  | _ =>
    obtain ⟨u, rfl⟩ := exec_eq_footprint h
    exact hs

/-- A capacity is 0 or even and 2..CAP_MAX (10_state.md R21). -/
abbrev CapacityOk (cap capMax : Nat) : Prop := cap = 0 ∨ (2 ≤ cap ∧ cap % 2 = 0 ∧ cap ≤ capMax)

/-- What the invariant says of one buffer. -/
abbrev BufferOk (x : Buffer) (capMax fresh : Nat) : Prop :=
  CapacityOk x.cap capMax ∧ x.words.Ok capMax ∧ x.era < fresh

theorem filled_bufferOk {x : Buffer} {capMax fresh cap n : Nat} (hx : BufferOk x capMax fresh)
    (hcap : CapacityOk cap capMax) (hn : n ≤ cap) (g : Nat → QNum) :
    BufferOk { cap := cap, words := x.words.fill n g, era := x.era } capMax fresh := by
  obtain ⟨-, hwords, hera⟩ := hx
  exact ⟨hcap, hwords.fill (by omega) g, hera⟩

theorem buf_transmit_same {K : Type} [Field K] [LinearOrder K] [Inhabited K] (bd bs : BufId) (s : State K) :
    (transmit bd bs s).buf bd =
      { cap := s.cap bs
        words := (s.buf bd).words.fill (2 * (s.cap bs / 2))
          (noisyWord (s.sbWord bs) (draws (2 * (s.cap bs / 2)) s).1 (s.cap bs / 2))
        era := (s.buf bd).era } := by
  rw [transmit, buf_fillBuf_same, draws_buf]

/-- No command gives back a key it has taken. -/
theorem exec_fresh_le (h : exec i s = .next t) : s.fresh ≤ t.fresh := by
  cases i with
  | bufMake bd len =>
    exact command_establishes (P := fun t => s.fresh ≤ t.fresh) h (fun _ => le_rfl) fun _ => Nat.le_succ _
  | _ =>
    obtain ⟨u, rfl⟩ := exec_eq_footprint h
    exact le_rfl

/-- The destination buffer is the only one a command can spoil. -/
theorem exec_keeps_buffersOk_of_destination (h : exec i s = .next t) (hs : s.BuffersOk)
    (hdest : ∀ b, i.bufferWritten = some b → BufferOk (t.buf b) s.params.capMax t.fresh) : t.BuffersOk := by
  obtain ⟨hparams, -⟩ := exec_keeps_host_owned h
  intro b
  rw [hparams]
  by_cases hb : i.bufferWritten = some b
  · exact hdest b hb
  · obtain ⟨hbuf, -⟩ := onlyTheDestinationBufferIsWritten i s t b h hb
    obtain ⟨hcap, hwords, hera⟩ := hs b
    rw [hbuf]
    exact ⟨hcap, hwords, hera.trans_le (exec_fresh_le h)⟩

/-- A command that faults leaves its destination as it was. -/
theorem command_destination_ok {b : BufId} {effect : State} {checks : List (Bool × CmdFault)}
    (h : command s checks effect = .next t) (hs : s.BuffersOk)
    (hpass : firstFault checks = none → BufferOk (effect.buf b) s.params.capMax effect.fresh) :
    BufferOk (t.buf b) s.params.capMax t.fresh :=
  command_establishes (P := fun t => BufferOk (t.buf b) s.params.capMax t.fresh) h (fun _ => hs b) hpass

/-- What a command leaves in its destination is a buffer of even capacity that fits, or the old one. -/
theorem exec_keeps_buffersOk (h : exec i s = .next t) (hs : s.BuffersOk) : t.BuffersOk := by
  refine exec_keeps_buffersOk_of_destination h hs fun b hb => ?_
  have ⟨hcap, hwords, hera⟩ := hs b
  cases i with
  | bufMake bd len =>
    cases hb
    refine command_destination_ok h hs fun hpass => ?_
    obtain ⟨hshape, hrest⟩ := firstFault_cons_eq_none hpass
    obtain ⟨hmax, -⟩ := firstFault_cons_eq_none hrest
    simp only [Bool.or_eq_false_iff, decide_eq_false_iff_not] at hshape hmax
    have hlen : CapacityOk len.toNat s.params.capMax := by unfold CapacityOk; omega
    rw [buf_makeBuf_same]
    exact ⟨hlen, hwords.forgetBelow _, Nat.lt_succ_self _⟩
  | bufStore bd idx =>
    cases hb
    refine command_destination_ok h hs fun hpass => ?_
    obtain ⟨-, hrest⟩ := firstFault_cons_eq_none hpass
    obtain ⟨hidx, -⟩ := firstFault_cons_eq_none hrest
    have hinside : idx.toNat < (s.buf b).cap / 2 := not_le.1 (of_decide_eq_false hidx)
    have him : (s.buf b).cap / 2 + idx.toNat < s.params.capMax := by omega
    rw [buf_setBuf_same]
    exact ⟨hcap, (hwords.write (by omega) _).write him _, hera⟩
  | bufCopy bd bs =>
    cases hb
    refine command_destination_ok h hs fun _ => ?_
    obtain ⟨hsource, -, -⟩ := hs bs
    split
    · exact hs b
    · rw [buf_fillBuf_same]
      exact filled_bufferOk (hs b) hsource le_rfl _
  | modulate bd =>
    cases hb
    refine command_destination_ok h hs fun hpass => ?_
    obtain ⟨-, hrest⟩ := firstFault_cons_eq_none hpass
    obtain ⟨hsome, hrest⟩ := firstFault_cons_eq_none hrest
    obtain ⟨hfits, -⟩ := firstFault_cons_eq_none hrest
    simp only [decide_eq_false_iff_not] at hsome hfits
    have hlen : CapacityOk (2 * s.symbolCount) s.params.capMax := by unfold CapacityOk; omega
    rw [buf_fillBuf_same]
    exact filled_bufferOk (hs b) hlen le_rfl _
  | chTxb bd bs =>
    cases hb
    refine command_destination_ok h hs fun _ => ?_
    obtain ⟨hsource, -, -⟩ := hs bs
    rw [buf_transmit_same, transmit_fresh]
    exact filled_bufferOk (hs b) hsource (Nat.mul_div_le _ _) _
  | _ => cases hb

/-- Six bits a symbol at most, and two words a sample. -/
theorem buffer_output_fits {p : Params} (hp : p.Ok) {cap : Nat} (hcap : cap ≤ p.capMax) (o : Order) :
    cap / 2 * bps o ≤ 3 * p.capMax ∧ ceilDiv (cap / 2 * bps o) 8 ≤ p.bytesMax := by
  obtain ⟨-, -, -, -, -, hbytes, -⟩ := hp
  have hbits : cap / 2 * bps o ≤ 3 * p.capMax :=
    calc cap / 2 * bps o ≤ cap / 2 * 6 := Nat.mul_le_mul_left _ (bps_le_six o)
      _ ≤ 3 * p.capMax := by omega
  exact ⟨hbits, le_trans (Nat.div_le_div_right (by omega)) hbytes⟩

theorem pack_streamsOk {k : Nat} {v : List Nat} (hs : s.StreamsOk)
    (hlen : ceilDiv (v.length * k) 8 ≤ s.params.bytesMax) : (pack k v s).StreamsOk := by
  obtain ⟨hbinLen, -, hllrLen, hbin, hbout, hllr⟩ := hs
  exact ⟨hbinLen, hlen, hllrLen, hbin, hbout.fill hlen _, hllr⟩

theorem softOutput_streamsOk {b : BufId} (hs : s.StreamsOk)
    (hlen : s.cap b / 2 * bps s.order ≤ 3 * s.params.capMax) : (softOutput b s).StreamsOk := by
  obtain ⟨hbinLen, hboutLen, -, hbin, hbout, hllr⟩ := hs
  exact ⟨hbinLen, hboutLen, hlen, hbin, hbout, hllr.fill hlen _⟩

/-- The output of a whole buffer fits BOUT and LLR by the bounds of the parameters (00_scope.md R5). -/
theorem exec_keeps_streamsOk (h : exec i s = .next t) (hp : s.params.Ok) (hb : s.BuffersOk) (hs : s.StreamsOk) :
    t.StreamsOk := by
  have fits (b : BufId) := buffer_output_fits hp (show s.cap b ≤ s.params.capMax by
    obtain ⟨hcap, -⟩ := hb b
    simp only [State.cap]; omega) s.order
  cases i with
  | demod bs =>
    refine command_establishes h (fun _ => hs) fun _ => ?_
    exact pack_streamsOk hs (by rw [hardDecisions_length]; exact (fits bs).2)
  | demodLlr bs hard =>
    have hsoft := softOutput_streamsOk hs (fits bs).1
    refine command_establishes h (fun _ => hs) fun _ => ?_
    cases hard with
    | false => exact hsoft
    | true => exact pack_streamsOk hsoft (by rw [slicedIndices_length]; exact (fits bs).2)
  | _ =>
    obtain ⟨u, rfl⟩ := exec_eq_footprint h
    exact hs

/-- CH_SET fills the cache, with zeros at sigma = 0, and a draw keeps the cursor inside it. -/
theorem exec_keeps_channelOk (h : exec i s = .next t) (hs : s.ChannelOk) : t.ChannelOk := by
  have ⟨hsigma, hcursor, hnz, hfull, hsilent⟩ := hs
  have hpos : 0 < s.params.noiseLen := Nat.zero_lt_of_lt hcursor
  cases i with
  | chSet =>
    refine command_establishes h (fun _ => hs) fun hpass => ?_
    obtain ⟨hdi, -⟩ := firstFault_cons_eq_none hpass
    refine ⟨not_lt.1 (of_decide_eq_false hdi), hpos, hnz.fill le_rfl _,
      fun _ a ha => Memory.isSome_read_fill _ ha _, fun _ hzero a ha => ?_⟩
    refine (Memory.read_fill_of_lt _ ha _).trans (congrArg some ?_)
    rw [show s.di = 0 from hzero, noiseGen_zero]
  | chTxs =>
    refine command_establishes h (fun _ => hs) fun _ => ?_
    rw [addNoise_eq]
    exact ⟨hsigma, Nat.mod_lt _ hpos, hnz, hfull, hsilent⟩
  | chTxb bd bs =>
    refine command_establishes h (fun _ => hs) fun _ => ?_
    have hmoved : (transmit bd bs s).cursor < s.params.noiseLen := by
      rw [transmit, fillBuf_cursor, draws_state _ s hcursor]
      exact Nat.mod_lt _ hpos
    rw [transmit_frame]
    exact ⟨hsigma, hmoved, hnz, hfull, hsilent⟩
  | _ =>
    obtain ⟨u, rfl⟩ := exec_eq_footprint h
    exact hs

theorem exec_keeps_spacesOk (h : exec i s = .next t) (hs : s.SpacesOk) : t.SpacesOk := by
  have ⟨hcm, hct, hgt, hera⟩ := hs
  cases i with
  | mapInit o =>
    refine command_establishes h (fun _ => hs) fun _ => ?_
    exact ⟨hcm, hct.fill (points_le o) _, hgt, hera⟩
  | mapInstall =>
    refine command_establishes h (fun _ => hs) fun _ => ?_
    exact ⟨hcm, hct.fill (points_le s.order) _, hgt, hera⟩
  | bufMake bd len =>
    refine command_establishes h (fun _ => hs) fun _ => ?_
    exact ⟨hcm, hct, hgt, Nat.lt_succ_of_lt hera⟩
  | _ =>
    obtain ⟨u, rfl⟩ := exec_eq_footprint h
    exact hs

theorem exec_keeps_inv (h : exec i s = .next t) (hr : s.run = .running) (hpc : s.pc < s.params.cmSize)
    (hs : s.Inv) : t.Inv := by
  obtain ⟨hparams, hcontrol, hmapper, hbuffers, hstreams, hchannel, hspaces⟩ := hs
  obtain ⟨hkept, -⟩ := exec_keeps_host_owned h
  exact ⟨by rw [hkept]; exact hparams, exec_keeps_controlOk h hr hpc hcontrol, exec_keeps_mapperOk h hmapper,
    exec_keeps_buffersOk h hbuffers, exec_keeps_streamsOk h hparams hbuffers hstreams,
    exec_keeps_channelOk h hchannel, exec_keeps_spacesOk h hspaces⟩

theorem raise_keeps_inv (f : CmdFault) (hs : s.Inv) : (raise f s).Inv := by
  obtain ⟨hparams, ⟨hpc, -, -⟩, hrest⟩ := hs
  exact ⟨hparams, ⟨hpc, hpc, by simp⟩, hrest⟩

end

/-! ### Reset and the moves of the host -/

/-- The registers of 10_state.md R31, with nothing written in any memory, whatever the oracle's answers are. -/
theorem afterReset_inv {p : Params} (hp : p.Ok) (key : Nat) (answers : List (List QNum)) :
    State.Inv { State.afterReset p key with oracle := answers } := by
  have hempty {α : Type} (size : Nat) : Memory.Ok ([] : Memory α) size := ⟨List.Pairwise.nil, nofun⟩
  have hbuf (b : BufId) : (State.afterReset p key).buf b = Buffer.unmade key := Vector.getElem_replicate _
  have ⟨hnoise, _⟩ := hp
  refine ⟨hp, ⟨Nat.zero_le _, Nat.zero_le _, by simp [State.afterReset]⟩,
    ⟨by simp [State.afterReset], nofun, nofun, nofun, nofun, nofun⟩, fun b => ?buffer,
    ⟨Nat.zero_le _, Nat.zero_le _, Nat.zero_le _, hempty _, hempty _, hempty _⟩,
    ⟨le_rfl, hnoise, hempty _, nofun, nofun⟩, ⟨hempty _, hempty _, hempty _, Nat.lt_succ_self key⟩⟩
  case buffer => exact (hbuf b).symm ▸ ⟨.inl rfl, hempty _, Nat.lt_succ_self key⟩

/-- The machine's own parameters are inside the bounds of 00_scope.md R5. -/
theorem configParams_ok : Params.Ok Config.params := by
  have hcap : 2 ≤ Config.capMax ∧ Config.capMax ≤ 65534 ∧ Config.capMax % 2 = 0 := by
    unfold Config.capMax; omega
  have hbytes : ceilDiv (3 * Config.capMax) 8 < 65536 := by unfold ceilDiv; omega
  have hfloor : (0 : QNum) < if (0 : QNum) < Config.sigma2FloorRaw then Config.sigma2FloorRaw else 1 := by
    split
    · assumption
    · exact one_pos
  obtain ⟨hcapMin, hcapMax, heven⟩ := hcap
  have hrest := Nat.mod_lt Config.bytesMaxRaw (Nat.sub_pos_of_lt hbytes)
  have hnoise := Nat.mod_lt Config.noiseLenRaw (show 0 < 65535 by decide)
  have hcm := Nat.mod_lt Config.cmSizeRaw (show 0 < 65535 by decide)
  refine ⟨Nat.succ_pos _, hnoise, hcapMin, hcapMax, heven, Nat.le_add_right _ _, ?bytes, Nat.succ_pos _, hcm, hfloor⟩
  case bytes => simp only [Config.params]; omega

section
variable {s : State}

theorem hostReset_inv (hs : s.Inv) : (hostReset s).Inv := by
  obtain ⟨hparams, -⟩ := hs
  exact afterReset_inv hparams s.fresh s.oracle

/-- A run starts with ERR clear: a core that is IDLE or DONE has raised no fault. -/
theorem hostStart_inv (hs : s.Inv) : (hostStart s).Inv := by
  obtain ⟨hready, e⟩ | ⟨-, e⟩ := hostStart_cases s <;> rw [e]
  · obtain ⟨hparams, ⟨-, hepc, herr⟩, hrest⟩ := hs
    have hclear : s.err = none := by rcases hready with hr | hr <;> simpa [hr] using herr
    exact ⟨hparams, ⟨Nat.zero_le _, hepc, by simp [hclear]⟩, hrest⟩
  · exact hs

theorem HostWrites.keeps_inv {h : HostAction} {t : State} (hw : HostWrites s h t) (hs : s.Inv) : t.Inv := by
  obtain ⟨hparams, hcontrol, hmapper, hbuffers, hstreams, hchannel, hspaces⟩ := hs
  cases hw with
  | cm w ha =>
    obtain ⟨hcm, hothers⟩ := hspaces
    exact ⟨hparams, hcontrol, hmapper, hbuffers, hstreams, hchannel, hcm.write ha w, hothers⟩
  | bin x ha =>
    obtain ⟨hbinLen, hboutLen, hllrLen, hbin, hout⟩ := hstreams
    exact ⟨hparams, hcontrol, hmapper, hbuffers, ⟨hbinLen, hboutLen, hllrLen, hbin.write ha x, hout⟩, hchannel,
      hspaces⟩
  | gt p ha =>
    obtain ⟨hcm, hct, hgt, hera⟩ := hspaces
    exact ⟨hparams, hcontrol, hmapper, hbuffers, hstreams, hchannel, hcm, hct, hgt.write ha p, hera⟩
  | binLen w hw =>
    obtain ⟨-, hothers⟩ := hstreams
    exact ⟨hparams, hcontrol, hmapper, hbuffers, ⟨hw, hothers⟩, hchannel, hspaces⟩
  | di _ | dq _ => exact ⟨hparams, hcontrol, hmapper, hbuffers, hstreams, hchannel, hspaces⟩

end

end Sys2Proof.Machine
end

section
/-! The statements on the machine invariant. -/

open Sys2Proof Sys2Proof.Machine

/-- Settles O14, by the three things a step can do: nothing, fault entry, or a command of a running core. -/
theorem everyStepKeepsTheInvariant : Obligations.EveryStepKeepsTheInvariant := by
  intro s t hs h
  obtain ⟨-, rfl⟩ | ⟨-, rfl⟩ | ⟨hr, hpc, i, -, hx⟩ := step_cases h
  · exact hs
  · exact raise_keeps_inv _ hs
  · exact exec_keeps_inv hx hr hpc hs

/-- Settles O15, by all that a move of the host can do. -/
theorem everyHostMoveKeepsTheInvariant : Obligations.EveryHostMoveKeepsTheInvariant := by
  intro h s t hs hm
  obtain ⟨-, rfl⟩ | ⟨-, rfl⟩ | rfl | ⟨-, hw⟩ := hostMove_cases hm
  · exact hostReset_inv hs
  · exact hostStart_inv hs
  · exact hs
  · exact hw.keeps_inv hs

/-- Settles O13: power-on is a reset under the key 0 with no oracle answer fixed. -/
theorem invariantHoldsAfterPowerOn : Obligations.InvariantHoldsAfterPowerOn :=
  ⟨fun _ hp => afterReset_inv hp 0 [], afterReset_inv configParams_ok 0 []⟩

end

section
/-! SUPPORT. One step of a run either ends it or goes to the next word, a word placed is the word fetched, and a
buffer outlives the commands that do not write it (45_control.md R160 to R162, 41_buffer.md R105). -/

namespace Sys2Proof.Machine

section
variable {s t : State}

/-- HALT and fault entry end a run; any other command goes on to the next word of CM. -/
theorem step_ends_or_advances (hr : s.run = .running) (h : step s = .next t) :
    t.RunOver ∨ (s.pc < s.params.cmSize ∧ t.run = .running ∧ t.pc = s.pc + 1 ∧ t.params = s.params) := by
  obtain ⟨hidle, -⟩ | ⟨-, rfl⟩ | ⟨-, hpc, i, -, hx⟩ := step_cases h
  · exact absurd hr hidle
  · exact .inl (.inr rfl)
  · obtain ⟨f, rfl⟩ | ⟨-, hrun', hpc', -, -⟩ | ⟨-, rfl⟩ := exec_control hx
    · exact .inl (.inr rfl)
    · obtain ⟨hparams, -⟩ := exec_keeps_host_owned hx
      exact .inr ⟨hpc, hrun'.trans hr, hpc', hparams⟩
    · exact .inl (.inl rfl)

theorem run_succ_of_step (h : step s = .next t) (n : Nat) :
    Host.Core.run Sys2Proof.core (n + 1) s = Host.Core.run Sys2Proof.core n t := by
  have hcore : Sys2Proof.core.step s = .next t := h
  simp only [Host.Core.run, hcore]

/-- By induction on the number of words of CM that are left. -/
theorem run_ends_within {left : Nat} (hr : s.run = .running) (hleft : s.params.cmSize - s.pc = left) :
    ∃ n t, n ≤ left + 1 ∧ Host.Core.run Sys2Proof.core n s = .next t ∧ t.RunOver := by
  induction left generalizing s with
  | zero =>
    obtain ⟨t, h⟩ := step_answers_next s
    obtain hover | ⟨hpc, -⟩ := step_ends_or_advances hr h
    · exact ⟨1, t, le_rfl, run_succ_of_step h 0, hover⟩
    · omega
  | succ left ih =>
    obtain ⟨t, h⟩ := step_answers_next s
    obtain hover | ⟨hpc, hrun', hpc', hparams⟩ := step_ends_or_advances hr h
    · exact ⟨1, t, by omega, run_succ_of_step h 0, hover⟩
    · obtain ⟨n, u, hn, hu, hover⟩ := ih hrun' (by rw [hparams, hpc']; omega)
      exact ⟨n + 1, u, by omega, (run_succ_of_step h n).trans hu, hover⟩

theorem decode_of_decodeTableWord {nbits w : Nat} {i : Instr} (h : decodeTableWord nbits w = some i) :
    decode (tableWord nbits w) = .ok i := by
  unfold decodeTableWord at h
  split at h
  · cases h; assumption
  · cases h

theorem fetchPoint_lt (h : 1 ≤ s.params.cmSize) : s.fetchPoint < s.params.cmSize := by
  unfold State.fetchPoint pastEnd
  split
  · exact h
  · simp_all

theorem fetch_withFetchWord (nbits w : Nat) : fetch (s.withFetchWord nbits w) = decode (tableWord nbits w) :=
  congrArg decode (Memory.getD_read_write_same ..)

theorem execAll_keeps_buffer {b : BufId} {cmds : List Instr} (hcmds : ∀ i ∈ cmds, i.bufferWritten ≠ some b)
    (h : execAll cmds s = .next t) : t.buf b = s.buf b := by
  induction cmds generalizing s with
  | nil => cases h; rfl
  | cons i rest ih =>
    obtain ⟨hi, hrest⟩ := List.forall_mem_cons.1 hcmds
    obtain ⟨u, hu⟩ := exec_answers_next i s
    rw [execAll, hu] at h
    obtain ⟨hbuf, -⟩ := onlyTheDestinationBufferIsWritten i s u b hu hi
    exact (ih hrest h).trans hbuf

end

end Sys2Proof.Machine
end

section
/-! The statements on runs, on stored samples, on repeated draws and on single words. -/

open Sys2Proof Sys2Proof.Machine

/-- Settles O12, by induction on the words of CM that are left. -/
theorem everyRunEnds : Obligations.EveryRunEnds :=
  fun _ hr _ => run_ends_within hr rfl

/-- Settles O33: the store puts the sample in, the commands between leave the buffer, and the load reads it. -/
theorem storedSampleReadsBackExactly : Obligations.StoredSampleReadsBackExactly := by
  intro b idx s hidx
  obtain ⟨-, -, hstore⟩ := bufStoreWritesOneSample b idx s
  obtain ⟨t, ht, -, hcap, hre, him, hwords, -⟩ := hstore hidx
  refine ⟨t, ht, fun cmds u hcmds hu => ?readsBack, fun n hn hne => ?others⟩
  case readsBack =>
    have hbuf : u.buf b = t.buf b := execAll_keeps_buffer hcmds hu
    have hcap' : u.cap b = s.cap b := (congrArg Buffer.cap hbuf).trans hcap
    obtain ⟨-, -, hload⟩ := bufLoadReadsOneSample b idx u
    refine ⟨_, hload (hcap' ▸ hidx), (sbWord_of_buf_eq hbuf _).trans hre, ?_⟩
    exact (sbWord_of_buf_eq hbuf _).trans (hcap' ▸ him)
  case others =>
    have hre' := hwords n (by omega) (by omega)
    have him' := hwords (s.cap b / 2 + n) (by omega) (by omega)
    rw [State.sample, State.sample, hcap, hre', him']

/-- Settles O49: draws `t` and `t + L` read the cache at the same index. -/
theorem noiseRepeatsWithPeriodL : Obligations.NoiseRepeatsWithPeriodL := by
  intro n s t hcur ht
  rw [draws_value hcur ht, draws_value hcur (by omega), ← Nat.add_assoc, Nat.add_mod_right]

/-- Settles O6: the word stands where the next fetch reads, which is inside CM. -/
theorem placedWordRunsNext : Obligations.PlacedWordRunsNext := fun _ _ _ hsize hword =>
  step_executes rfl (fetchPoint_lt hsize) ((fetch_withFetchWord _ _).trans (decode_of_decodeTableWord hword))

/-- Settles O1: the 12 legal words are encodings of the commands, and the decoder is evaluated on the 12 others. -/
theorem vectorWordsDecode : Obligations.VectorWordsDecode := by
  have legal (i : Instr) (hwf : i.WellFormed) : decode (encode i) = .ok i := decodingInvertsEncoding i hwf
  exact ⟨legal (.mapInit .qam64) rfl, legal (.mapGet 42) rfl, legal (.bufMake 3 65534) rfl, legal (.bufLoad 2 1) rfl,
    legal (.bufCopy 3 2) rfl, legal (.modBind .code3) rfl, legal (.modulate 1) rfl, legal (.demodLlr 1 true) rfl,
    legal (.llrBit 3 5 15) rfl, legal (.chTxb 1 0) rfl, legal .chLogq rfl, legal .halt rfl,
    rfl, rfl, rfl, rfl, rfl, rfl, rfl, rfl, rfl, rfl, rfl, rfl⟩

end

section
/-! SUPPORT. The rounded-up quotient, and two successive bytes of a stream as one 16-bit window (00_scope.md R6, R7,
42_modulator.md R111, R112). -/

namespace Sys2Proof

section
variable {a b : Nat}

theorem le_ceilDiv_mul (hb : 0 < b) : a ≤ ceilDiv a b * b := by
  have hround : a + b - 1 < (a + b - 1) / b * b + b := Nat.lt_div_mul_add hb
  unfold ceilDiv
  omega

theorem ceilDiv_mul_lt (hb : 0 < b) : ceilDiv a b * b < a + b := by
  have hround : (a + b - 1) / b * b ≤ a + b - 1 := Nat.div_mul_le_self _ _
  unfold ceilDiv
  omega

theorem ceilDiv_mul_of_dvd (hb : 0 < b) (h : a % b = 0) : ceilDiv a b * b = a := by
  obtain ⟨c, rfl⟩ := Nat.dvd_of_mod_eq_zero h
  rw [ceilDiv, Nat.add_sub_assoc hb, Nat.mul_add_div hb, Nat.div_eq_of_lt (Nat.sub_lt hb Nat.one_pos), Nat.add_zero,
    Nat.mul_comm]

end

end Sys2Proof

namespace Sys2Proof.Machine

theorem bps_pos {o : Order} (ho : o ≠ .code3) : 0 < bps o := by
  cases o with
  | code3 => exact absurd rfl ho
  | _ => decide

section
variable {y : Nat → Byte} {n : Nat}

theorem streamBit_at {a i : Nat} (ha : a < n) (hi : i < 8) : streamBit y n (8 * a + i) = (y a).getLsbD (7 - i) := by
  have hdiv : (8 * a + i) / 8 = a := by omega
  have hmod : (8 * a + i) % 8 = i := by omega
  rw [streamBit, decide_eq_true (by omega), Bool.true_and, hdiv, hmod]

theorem streamBit_beyond {p : Nat} (hp : 8 * n ≤ p) : streamBit y n p = false := by
  rw [streamBit, decide_eq_false (Nat.not_lt.2 hp), Bool.false_and]

end

/-- Byte `x` of a stream of `n` bytes as a number, 0 beyond the stream. -/
def streamByte (y : Nat → Byte) (n x : Nat) : Nat := if x < n then (y x).toNat else 0

section
variable (y : Nat → Byte) (n : Nat)

theorem streamByte_lt (x : Nat) : streamByte y n x < 2 ^ 8 := by
  unfold streamByte
  split
  · exact (y x).isLt
  · decide

theorem testBit_streamByte {i : Nat} (x : Nat) (hi : i < 8) :
    (streamByte y n x).testBit (7 - i) = streamBit y n (8 * x + i) := by
  rw [streamByte]
  split
  case isTrue hx => exact (streamBit_at hx hi).symm
  case isFalse hx => rw [streamBit_beyond (by omega), Nat.zero_testBit]

/-- Bit `m` from the high end of the two bytes at `q` stands at stream position `8*q + m`. -/
theorem testBit_window {m : Nat} (q : Nat) (hm : m < 16) :
    (streamByte y n q * 256 + streamByte y n (q + 1)).testBit (15 - m) = streamBit y n (8 * q + m) := by
  have hlow := streamByte_lt y n (q + 1)
  rw [Nat.mul_comm, show 256 = 2 ^ 8 from rfl, Nat.testBit_two_pow_mul_add _ hlow]
  split
  case isTrue h =>
    obtain ⟨i, rfl⟩ : ∃ i, m = 8 + i := ⟨m - 8, by omega⟩
    rw [show 15 - (8 + i) = 7 - i by omega, testBit_streamByte _ _ _ (by omega)]
    congr 1; ring
  case isFalse h => rw [show 15 - m - 8 = 7 - m by omega, testBit_streamByte _ _ _ (by omega)]

end

end Sys2Proof.Machine
end

section
/-! The statements on the groups of the input stream. -/

open Sys2Proof Sys2Proof.Machine

/-- Settles O37: the count rounds the quotient up, and two and four bits divide the bits of every byte. -/
theorem symbolCountCoversEveryBit : Obligations.SymbolCountCoversEveryBit := by
  intro s ho
  refine ⟨rfl, le_ceilDiv_mul (bps_pos ho), ?whole, ?padded⟩
  all_goals simp only [State.symbolCount, ceilDiv]
  case whole =>
    rintro (h | h)
    all_goals simp only [h, bps]; omega
  case padded =>
    intro h
    simp only [h, bps]
    split_ifs <;> omega

/-- Settles O36, bit by bit: bit `i` of the group is `n*k mod 8 + k - 1 - i` places from the window's high end. -/
theorem twoByteWindowGivesTheGroup : Obligations.TwoByteWindowGivesTheGroup := by
  intro s n _ k byte window
  have hk : k ≤ 6 := bps_le_six s.order
  refine Nat.eq_of_testBit_eq fun i => ?_
  rw [Nat.testBit_and, Nat.testBit_shiftRight, Nat.testBit_two_pow_sub_one]
  by_cases hi : i < k
  case pos =>
    have hplace : 16 - n * k % 8 - k + i = 15 - (n * k % 8 + (k - 1 - i)) := by omega
    have hposition : n * k + (k - 1 - i) = 8 * (n * k / 8) + (n * k % 8 + (k - 1 - i)) := by omega
    rw [State.group, testBit_fromMsb _ _ hi, decide_eq_true hi, Bool.and_true, hplace]
    exact (congrArg _ hposition).trans (testBit_window s.binByte s.binLen _ (by omega)).symm
  case neg =>
    have hsmall : s.group n < 2 ^ i :=
      (fromMsb_lt _ _).trans_le (Nat.pow_le_pow_right Nat.two_pos (Nat.le_of_not_lt hi))
    rw [Nat.testBit_lt_two_pow hsmall, decide_eq_false hi, Bool.and_false]

end

section
/-! SUPPORT. The Gray code is a bijection of the indices, and the values of an axis are the odd numbers of both signs
(40_mapper.md R81 to R84, R90). -/

namespace Sys2Proof.Machine

/-! ### The Gray code -/

theorem gray_xor (m n : Nat) : gray (m ^^^ n) = gray m ^^^ gray n := by
  simp only [gray, Nat.shiftRight_xor_distrib]
  ac_rfl

theorem gray_eq_zero {m : Nat} (h : gray m = 0) : m = 0 := by
  have hshift : m = m >>> 1 := Nat.xor_eq_zero_iff.1 h
  rw [Nat.shiftRight_one] at hshift
  omega

theorem gray_injective : Function.Injective gray := fun m n h => by
  have hxor : gray (m ^^^ n) = 0 := by rw [gray_xor, h, Nat.xor_self]
  exact Nat.xor_eq_zero_iff.1 (gray_eq_zero hxor)

theorem gray_lt {m k : Nat} (hm : m < 2 ^ k) : gray m < 2 ^ k :=
  Nat.xor_lt_two_pow hm ((Nat.shiftRight_le m 1).trans_lt hm)

/-- An injection of the indices into themselves reaches each. -/
theorem exists_gray_eq {g k : Nat} (hg : g < 2 ^ k) : ∃ m < 2 ^ k, gray m = g := by
  have hinj : Function.Injective fun m : Fin (2 ^ k) => (⟨gray m, gray_lt m.isLt⟩ : Fin (2 ^ k)) :=
    fun m n h => Fin.ext (gray_injective (congrArg Fin.val h))
  obtain ⟨m, hm⟩ := Finite.surjective_of_injective hinj ⟨g, hg⟩
  exact ⟨m, m.isLt, congrArg Fin.val hm⟩

/-- Consecutive indices have codes that differ in one bit. -/
theorem gray_succ {o : Order} {m : Nat} (hm : m + 1 < points o) : ∃ b < bps o, gray m ^^^ gray (m + 1) = 2 ^ b := by
  have hall : ∀ m < points o - 1, ∃ b < bps o, gray m ^^^ gray (m + 1) = 2 ^ b := by cases o <;> decide
  exact hall m (by omega)

/-! ### The values of an axis

The finite facts are for the at most three bits of an axis. -/

section
variable {h : Nat}

theorem abs_axisValue (sub h : Nat) : |axisValue sub h| = 2 * ((sub % 2 ^ (h - 1) : Nat) : Int) + 1 := by
  have hpos : 0 ≤ 2 * ((sub % 2 ^ (h - 1) : Nat) : Int) + 1 := by positivity
  unfold axisValue
  split
  · exact abs_of_nonneg hpos
  · rw [abs_neg, abs_of_nonneg hpos]

theorem axisValue_injective (hmax : h ≤ 3) :
    ∀ a < 2 ^ h, ∀ b < 2 ^ h, axisValue a h = axisValue b h → a = b := by
  interval_cases h <;> decide

/-- Every odd number of either sign below `2^h` is a value of an axis of `h` bits. -/
theorem exists_axisValue_eq (hmin : 1 ≤ h) (hmax : h ≤ 3) :
    ∀ x : Nat, x < 2 ^ (h - 1) → ∀ sign ∈ ([1, -1] : List Int), ∃ a < 2 ^ h, axisValue a h = sign * (2 * x + 1) := by
  interval_cases h <;> decide

/-- Two sub-indices that differ in one bit differ by the sign alone, or by the magnitude alone. -/
theorem axisValue_of_one_bit (hmax : h ≤ 3) :
    ∀ a < 2 ^ h, ∀ b < 2 ^ h, (∃ j < h, a ^^^ b = 2 ^ j) →
      axisValue a h = -axisValue b h ∨
        (0 < axisValue a h * axisValue b h ∧
          (|axisValue a h - axisValue b h| = 2 ∨ |axisValue a h - axisValue b h| = 4)) := by
  interval_cases h <;> decide

end

/-! ### The points of the default map -/

/-- The point of a Gray code whose low `h` bits govern the in-phase axis, the others the quadrature axis. -/
def gridPoint (h g : Nat) : Point := ⟨(axisValue (g % 2 ^ h) h : Int), (axisValue (g / 2 ^ h) h : Int)⟩

section
variable {h g g' : Nat}

theorem sub_indices_lt (hg : g < 2 ^ (h + h)) : g % 2 ^ h < 2 ^ h ∧ g / 2 ^ h < 2 ^ h :=
  ⟨Nat.mod_lt _ (Nat.two_pow_pos h), Nat.div_lt_of_lt_mul (Nat.pow_add 2 h h ▸ hg)⟩

theorem gridPoint_injective (hmax : h ≤ 3) (hg : g < 2 ^ (h + h)) (hg' : g' < 2 ^ (h + h))
    (heq : gridPoint h g = gridPoint h g') : g = g' := by
  obtain ⟨hlow, hhigh⟩ := sub_indices_lt hg
  obtain ⟨hlow', hhigh'⟩ := sub_indices_lt hg'
  have hi := axisValue_injective hmax _ hlow _ hlow' (Int.cast_injective (congrArg Point.i heq))
  have hq := axisValue_injective hmax _ hhigh _ hhigh' (Int.cast_injective (congrArg Point.q heq))
  rw [← Nat.div_add_mod g (2 ^ h), ← Nat.div_add_mod g' (2 ^ h), hi, hq]

/-- Every pair of axis values is a point. -/
theorem exists_gridPoint_eq {a b : Nat} (ha : a < 2 ^ h) (hb : b < 2 ^ h) :
    ∃ g < 2 ^ (h + h), gridPoint h g = ⟨(axisValue a h : Int), (axisValue b h : Int)⟩ := by
  refine ⟨2 ^ h * b + a, ?_, ?_⟩
  · calc 2 ^ h * b + a < 2 ^ h * (b + 1) := by rw [Nat.mul_succ]; omega
      _ ≤ 2 ^ h * 2 ^ h := Nat.mul_le_mul_left _ hb
      _ = 2 ^ (h + h) := (Nat.pow_add ..).symm
  · rw [gridPoint, Nat.mul_add_mod, Nat.mod_eq_of_lt ha, Nat.mul_add_div (Nat.two_pow_pos h), Nat.div_eq_of_lt ha,
      Nat.add_zero]

theorem abs_cast_axisValue (sub h : Nat) :
    |((axisValue sub h : Int) : QNum)| = ((2 * (sub % 2 ^ (h - 1)) + 1 : Nat) : QNum) := by
  rw [← Int.cast_abs, abs_axisValue]
  push_cast
  rfl

/-- What Gray adjacency means for one coordinate (40_mapper.md R90, 90_conflicts.md C2). -/
def AxisNeighbours (x y : QNum) : Prop := x = -y ∨ (0 < x * y ∧ (|x - y| = 2 ∨ |x - y| = 4))

theorem axisNeighbours_of_one_bit {a b j : Nat} (hmax : h ≤ 3) (ha : a < 2 ^ h) (hb : b < 2 ^ h) (hj : j < h)
    (hxor : a ^^^ b = 2 ^ j) : AxisNeighbours (axisValue a h : Int) (axisValue b h : Int) := by
  unfold AxisNeighbours
  exact_mod_cast axisValue_of_one_bit hmax a ha b hb ⟨j, hj, hxor⟩

/-- A bit that differs is one of the low `h`, and then the quadrature parts agree, or one of the high `h`, and then
the in-phase parts do. -/
theorem gridPoint_of_one_bit {b : Nat} (hmax : h ≤ 3) (hg : g < 2 ^ (h + h)) (hg' : g' < 2 ^ (h + h))
    (hb : b < h + h) (hxor : g ^^^ g' = 2 ^ b) :
    ((gridPoint h g).q = (gridPoint h g').q ∧ AxisNeighbours (gridPoint h g).i (gridPoint h g').i) ∨
      ((gridPoint h g).i = (gridPoint h g').i ∧ AxisNeighbours (gridPoint h g).q (gridPoint h g').q) := by
  obtain ⟨hlow, hhigh⟩ := sub_indices_lt hg
  obtain ⟨hlow', hhigh'⟩ := sub_indices_lt hg'
  have hmod : g % 2 ^ h ^^^ g' % 2 ^ h = 2 ^ b % 2 ^ h := by rw [← Nat.xor_mod_two_pow, hxor]
  have hdiv : g / 2 ^ h ^^^ g' / 2 ^ h = 2 ^ b / 2 ^ h := by
    simp only [← Nat.shiftRight_eq_div_pow, ← Nat.shiftRight_xor_distrib, hxor]
  by_cases hbh : b < h
  case pos =>
    have hsmall : 2 ^ b < 2 ^ h := Nat.pow_lt_pow_right Nat.one_lt_two hbh
    rw [Nat.mod_eq_of_lt hsmall] at hmod
    rw [Nat.div_eq_of_lt hsmall, Nat.xor_eq_zero_iff] at hdiv
    exact .inl ⟨by rw [gridPoint, gridPoint, hdiv], axisNeighbours_of_one_bit hmax hlow hlow' hbh hmod⟩
  case neg =>
    have hle : h ≤ b := Nat.le_of_not_lt hbh
    rw [Nat.mod_eq_zero_of_dvd (Nat.pow_dvd_pow 2 hle), Nat.xor_eq_zero_iff] at hmod
    rw [Nat.pow_div hle Nat.two_pos] at hdiv
    exact .inr ⟨by rw [gridPoint, gridPoint, hmod],
      axisNeighbours_of_one_bit hmax hhigh hhigh' (by omega) hdiv⟩

end

section
variable {o : Order}

/-- Each axis takes half the bits of a symbol, three at most. -/
theorem axis_bits (ho : o ≠ .code3) :
    1 ≤ bps o / 2 ∧ bps o / 2 ≤ 3 ∧ bps o = bps o / 2 + bps o / 2 ∧ inPhaseBits o = bps o / 2 := by
  cases o with
  | code3 => exact absurd rfl ho
  | _ => decide

theorem gray_lt_grid (ho : o ≠ .code3) {m : Nat} (hm : m < points o) : gray m < 2 ^ (bps o / 2 + bps o / 2) := by
  obtain ⟨-, -, hbits, -⟩ := axis_bits ho
  exact hbits ▸ gray_lt hm

theorem genDefault_eq_gridPoint (ho : o ≠ .code3) {m : Nat} (hm : m < points o) :
    genDefault o m = gridPoint (bps o / 2) (gray m) := by
  obtain ⟨-, -, -, hin⟩ := axis_bits ho
  obtain ⟨-, hhigh⟩ := sub_indices_lt (gray_lt_grid ho hm)
  rw [genDefault, gridPoint, hin, quadratureBits, Nat.shiftRight_eq_div_pow, Nat.mod_eq_of_lt hhigh]

theorem genDefault_injective (ho : o ≠ .code3) {m n : Nat} (hm : m < points o) (hn : n < points o)
    (heq : genDefault o m = genDefault o n) : m = n := by
  obtain ⟨-, hmax, -, -⟩ := axis_bits ho
  rw [genDefault_eq_gridPoint ho hm, genDefault_eq_gridPoint ho hn] at heq
  exact gray_injective (gridPoint_injective hmax (gray_lt_grid ho hm) (gray_lt_grid ho hn) heq)

theorem exists_genDefault_eq (ho : o ≠ .code3) {a b : Nat} (ha : a < 2 ^ (bps o / 2)) (hb : b < 2 ^ (bps o / 2)) :
    ∃ m < points o, genDefault o m = ⟨(axisValue a (bps o / 2) : Int), (axisValue b (bps o / 2) : Int)⟩ := by
  obtain ⟨-, -, hbits, -⟩ := axis_bits ho
  obtain ⟨g, hg, hpoint⟩ := exists_gridPoint_eq ha hb
  obtain ⟨m, hm, rfl⟩ := exists_gray_eq (hbits ▸ hg : g < 2 ^ bps o)
  exact ⟨m, hm, (genDefault_eq_gridPoint ho hm).trans hpoint⟩

/-- MAP_INIT leaves the default map in CT, from any state (40_mapper.md R84, R85). -/
theorem exec_mapInit_table (s : State) (ho : o ≠ .code3) {table : List Point}
    (htable : (List.range (points o)).map (genDefault o) = table) :
    ∃ t, exec (.mapInit o) s = .next t ∧ (List.range (points o)).map t.ctPoint = table := by
  obtain ⟨-, hinit⟩ := mapInitConstructsTheMapper o s
  obtain ⟨t, ht, -, hentries, -⟩ := hinit ho
  exact ⟨t, ht, (List.map_congr_left fun idx hidx => hentries idx (List.mem_range.1 hidx)).trans htable⟩

end

end Sys2Proof.Machine
end

section
/-! The statements on the default map. -/

open Sys2Proof Sys2Proof.Machine

/-- Settles O25: the Gray code is a bijection of the indices, and each half of its bits picks an axis value. -/
theorem defaultMapIsAGrayCodedGrid : Obligations.DefaultMapIsAGrayCodedGrid := by
  intro o ho
  obtain ⟨hmin, hmax, hbits, -⟩ := axis_bits ho
  refine ⟨fun m hm n hn => genDefault_injective ho hm hn, fun m hm => ?odd, fun x hx y hy sx hsx sy hsy => ?every,
    fun m hm => gray_succ hm, fun m hm n hn ⟨b, hb, hxor⟩ => ?adjacent⟩
  case odd =>
    have hmagnitude (sub : Nat) : sub % 2 ^ (bps o / 2 - 1) < 2 ^ (bps o / 2 - 1) := Nat.mod_lt _ (Nat.two_pow_pos _)
    rw [genDefault_eq_gridPoint ho hm]
    exact ⟨⟨_, hmagnitude _, abs_cast_axisValue _ _⟩, ⟨_, hmagnitude _, abs_cast_axisValue _ _⟩⟩
  case every =>
    obtain ⟨a, ha, hax⟩ := exists_axisValue_eq hmin hmax x hx sx hsx
    obtain ⟨b, hb, hby⟩ := exists_axisValue_eq hmin hmax y hy sy hsy
    rw [← hax, ← hby]
    exact exists_genDefault_eq ho ha hb
  case adjacent =>
    rw [genDefault_eq_gridPoint ho hm, genDefault_eq_gridPoint ho hn]
    exact gridPoint_of_one_bit hmax (gray_lt_grid ho hm) (gray_lt_grid ho hn) (hbits ▸ hb) hxor

/-- Settles O24: MAP_INIT writes the default map, whose entries are evaluated for each order. -/
theorem mapInitLeavesTheTablesOfTheSpec : Obligations.MapInitLeavesTheTablesOfTheSpec := fun s =>
  ⟨exec_mapInit_table s (by decide) (by decide +kernel), exec_mapInit_table s (by decide) (by decide +kernel),
    exec_mapInit_table s (by decide) (by decide +kernel)⟩

end

section
/-! SUPPORT. The sign of an LLR where the nearest point is unique, and the distances at a tie (43_demodulator.md
R122, R125, R127, R131). -/

namespace Sys2Proof.Machine

section
variable {s : State} {x : Point} {v pos : Nat}

theorem flooredSigma2_pos (hfloor : 0 < s.params.sigma2Floor) : 0 < s.flooredSigma2 := by
  rw [flooredSigma2_eq_max]
  exact lt_max_of_lt_right hfloor

/-- The scale of an LLR does not touch its sign. -/
theorem llrOf_neg_iff (hfloor : 0 < s.params.sigma2Floor) :
    s.llrOf x pos < 0 ↔ s.subsetDist x pos true < s.subsetDist x pos false := by
  have hscale : 0 < 2 * s.flooredSigma2 := mul_pos two_pos (flooredSigma2_pos hfloor)
  rw [State.llrOf, div_lt_iff₀ hscale, zero_mul, sub_neg]

/-- The least distance to the points that have a bit as `v` has it is below the one to the points that do not. -/
theorem subsetDist_lt_of_unique (hv : v < points s.order)
    (hunique : ∀ j < points s.order, j ≠ v → dist2 x (s.ctPoint v) < dist2 x (s.ctPoint j))
    (hpos : pos < bps s.order) {other : Bool} (hother : other ≠ v.testBit pos) :
    s.subsetDist x pos (v.testBit pos) < s.subsetDist x pos other := by
  obtain ⟨j, hj, hbit, hdist⟩ := subsetDist_attained (s := s) (x := x) (bit := other) hpos
  have hne : j ≠ v := fun e => hother (by rw [← hbit, e])
  exact (subsetDist_le hv rfl).trans_lt (hdist ▸ hunique j hj hne)

theorem slice_llrOf_of_unique (hfloor : 0 < s.params.sigma2Floor) (hv : v < points s.order)
    (hunique : ∀ j < points s.order, j ≠ v → dist2 x (s.ctPoint v) < dist2 x (s.ctPoint j))
    (hpos : pos < bps s.order) : slice (s.llrOf x pos) = v.testBit pos := by
  have hless {other : Bool} := subsetDist_lt_of_unique hv hunique hpos (other := other)
  cases hbit : v.testBit pos with
  | true =>
    rw [hbit] at hless
    exact decide_eq_true ((llrOf_neg_iff hfloor).2 (hless Bool.false_ne_true))
  | false =>
    rw [hbit] at hless
    exact decide_eq_false fun hneg => lt_asymm ((llrOf_neg_iff hfloor).1 hneg) (hless Bool.false_ne_true.symm)

end

/-- The search returns the first least index. -/
theorem nearestOf_eq_of_first_min {K : Type} [LinearOrder K] (d : Nat → K) {m v : Nat} (hv : v < m)
    (hle : ∀ j < m, d v ≤ d j) (hfirst : ∀ j < v, d v < d j) : nearestOf d m = v := by
  rcases Nat.lt_trichotomy (nearestOf d m) v with h | h | h
  · exact absurd (hfirst _ h) (nearestOf_le d hv).not_gt
  · exact h
  · exact absurd (nearestOf_first d h) (hle _ (nearestOf_lt d (by omega))).not_gt

/-! ### The tie of the default QPSK map at (1, 0) -/

section
variable {s : State} {idx pos : Nat} (horder : s.order = .qpsk)
  (hmap : ∀ idx < 4, s.ctPoint idx = genDefault .qpsk idx)

section
include hmap

/-- Points 1 and 2 are at distance 1, points 0 and 3 farther away. -/
theorem dist2_qpsk_tie (hidx : idx < 4) :
    dist2 ⟨1, 0⟩ (s.ctPoint idx) = if idx = 1 ∨ idx = 2 then 1 else 5 := by
  have hdefault : ∀ idx < 4, dist2 ⟨1, 0⟩ (genDefault .qpsk idx) = if idx = 1 ∨ idx = 2 then 1 else 5 := by
    decide +kernel
  rw [hmap idx hidx, hdefault idx hidx]

theorem dist2_qpsk_tie_near (hnear : idx = 1 ∨ idx = 2) : dist2 ⟨1, 0⟩ (s.ctPoint idx) = 1 :=
  (dist2_qpsk_tie hmap (by omega)).trans (if_pos hnear)

theorem one_le_dist2_qpsk_tie (hidx : idx < 4) : 1 ≤ dist2 ⟨1, 0⟩ (s.ctPoint idx) := by
  rw [dist2_qpsk_tie hmap hidx]
  split <;> norm_num

end

include horder hmap

theorem nearest_qpsk_tie : s.nearest ⟨1, 0⟩ = 1 := by
  rw [State.nearest, horder]
  refine nearestOf_eq_of_first_min _ (by decide) (fun j hj => ?_) fun j hj => ?_ <;>
    rw [dist2_qpsk_tie_near hmap (.inl rfl)]
  · exact one_le_dist2_qpsk_tie hmap hj
  · obtain rfl : j = 0 := by omega
    rw [dist2_qpsk_tie hmap (by decide)]
    norm_num

/-- Each of the two index bits is 0 at one of the two nearest points and 1 at the other. -/
theorem subsetDist_qpsk_tie (hpos : pos < 2) (bit : Bool) : s.subsetDist ⟨1, 0⟩ pos bit = 1 := by
  have hboth : ∀ pos < 2, ∀ bit, ∃ idx < 4, (idx = 1 ∨ idx = 2) ∧ idx.testBit pos = bit := by decide
  obtain ⟨n, hn, hnear, hbit⟩ := hboth pos hpos bit
  obtain ⟨m, hm, -, hleast⟩ := subsetDist_attained (s := s) (x := ⟨1, 0⟩) (bit := bit) (by rw [horder]; exact hpos)
  rw [horder] at hm
  refine le_antisymm ?_ (hleast ▸ one_le_dist2_qpsk_tie hmap hm)
  exact (subsetDist_le (by rw [horder]; exact hn) hbit).trans_eq (dist2_qpsk_tie_near hmap hnear)

theorem llrOf_qpsk_tie (hpos : pos < 2) : s.llrOf ⟨1, 0⟩ pos = 0 := by
  rw [State.llrOf, subsetDist_qpsk_tie horder hmap hpos, subsetDist_qpsk_tie horder hmap hpos, sub_self, zero_div]

end

end Sys2Proof.Machine
end

section
/-! The statement on hard and soft decisions. -/

open Sys2Proof Sys2Proof.Machine

/-- Settles O45: a unique nearest point is the search's answer and gives each LLR its sign, and at the tie both
subsets are at distance 1. -/
theorem hardAndSoftDecisionsAgreeWithoutTies : Obligations.HardAndSoftDecisionsAgreeWithoutTies := by
  refine ⟨fun s x v hfloor hv hunique => ⟨nearestOf_eq_of_unique _ hv hunique,
    fun pos hpos => slice_llrOf_of_unique hfloor hv hunique hpos⟩, fun s horder hmap => ?tie⟩
  case tie =>
    have hlow : s.llrOf ⟨1, 0⟩ 0 = 0 := llrOf_qpsk_tie horder hmap (by decide)
    have hhigh : s.llrOf ⟨1, 0⟩ 1 = 0 := llrOf_qpsk_tie horder hmap (by decide)
    have hslice : slice (0 : QNum) = false := decide_eq_false (lt_irrefl 0)
    rw [hlow, hhigh]
    exact ⟨nearest_qpsk_tie horder hmap, rfl, rfl, hslice, hslice⟩

end

section
/-! SUPPORT. The bits that come back from a buffer whose hard decisions are the groups of the input, and the buffers
that have them: the modulated one, and its copy through a silent channel (43_demodulator.md R130). -/

namespace Sys2Proof.Machine

/-! ### The way back from the groups to the bytes -/

section
variable {s : State}

theorem symbolCount_ne_zero (ho : s.order ≠ .code3) (hlen : 1 ≤ s.binLen) : s.symbolCount ≠ 0 := by
  intro hzero
  have hcover : 8 * s.binLen ≤ s.symbolCount * bps s.order := le_ceilDiv_mul (bps_pos ho)
  rw [hzero] at hcover
  omega

/-- Packed again, the groups are the input stream, since the groups cover every bit. -/
theorem packedBit_groups (ho : s.order ≠ .code3) (p : Nat) :
    packedBit (bps s.order) ((List.range s.symbolCount).map s.group) p = streamBit s.binByte s.binLen p := by
  have hk : 0 < bps s.order := bps_pos ho
  have hcover : 8 * s.binLen ≤ s.symbolCount * bps s.order := le_ceilDiv_mul hk
  have hlength : ((List.range s.symbolCount).map s.group).length = s.symbolCount := by simp
  by_cases hp : p < s.symbolCount * bps s.order
  case pos =>
    have hn : p / bps s.order < s.symbolCount := (Nat.div_lt_iff_lt_mul hk).2 hp
    have hj : p % bps s.order < bps s.order := Nat.mod_lt p hk
    have hbit := packedBit_at _ _ (hlength.symm ▸ hn) hj
    rw [Nat.div_add_mod'] at hbit
    rw [hbit, List.getElem_map, List.getElem_range, State.group, testBit_fromMsb _ _ (by omega),
      Nat.sub_sub_self (by omega), Nat.div_add_mod']
  case neg =>
    rw [packedBit_beyond (by rw [hlength]; omega), streamBit_beyond (by omega)]

/-- A byte is what its eight stream positions say. -/
theorem byte_eq_of_streamBit {y : Nat → Byte} {n a : Nat} {x : Byte} (ha : a < n)
    (hbits : ∀ i < 8, streamBit y n (8 * a + i) = x.getLsbD (7 - i)) : y a = x := by
  refine BitVec.eq_of_getLsbD_eq fun j hj => ?_
  have hbit := (streamBit_at ha (by omega)).symm.trans (hbits (7 - j) (by omega))
  rwa [Nat.sub_sub_self (by omega)] at hbit

/-- The output of a DEMOD whose hard decisions are the groups of `s`. -/
def packGroups (s t : State) : State := advance (pack (bps s.order) ((List.range s.symbolCount).map s.group) t)

section
variable {t : State}

theorem streamBit_packGroups (ho : s.order ≠ .code3) (p : Nat) :
    streamBit (packGroups s t).boutByte (packGroups s t).boutLen p = streamBit s.binByte s.binLen p :=
  (streamBit_pack p).trans (packedBit_groups ho p)

/-- The last group of a bit count that `bps` does not divide has at most five pad bits, so it ends in the next
byte. -/
theorem boutLen_packGroups (ho : s.order ≠ .code3) :
    (packGroups s t).boutLen = if 8 * s.binLen % bps s.order = 0 then s.binLen else s.binLen + 1 := by
  have hlength : (packGroups s t).boutLen = (s.symbolCount * bps s.order + 7) / 8 := by
    simp [packGroups, pack, ceilDiv]
  have hlow : 8 * s.binLen ≤ s.symbolCount * bps s.order := le_ceilDiv_mul (bps_pos ho)
  have hhigh : s.symbolCount * bps s.order < 8 * s.binLen + bps s.order := ceilDiv_mul_lt (bps_pos ho)
  have hsix := bps_le_six s.order
  rw [hlength]
  split
  case isTrue hdvd =>
    have hexact : s.symbolCount * bps s.order = 8 * s.binLen := ceilDiv_mul_of_dvd (bps_pos ho) hdvd
    omega
  case isFalse hdvd =>
    have hne : s.symbolCount * bps s.order ≠ 8 * s.binLen := fun e => hdvd (e ▸ Nat.mul_mod_left _ _)
    omega

theorem boutByte_packGroups (ho : s.order ≠ .code3) {a : Nat} (ha : a < s.binLen) :
    (packGroups s t).boutByte a = s.binByte a := by
  have hinside : a < (packGroups s t).boutLen := by
    rw [boutLen_packGroups ho]
    split <;> omega
  exact byte_eq_of_streamBit hinside fun i hi => (streamBit_packGroups ho _).trans (streamBit_at ha hi)

/-- One byte follows the input, and the pad bits that fill it are zero. -/
theorem packGroups_padded (ho : s.order ≠ .code3) (hdvd : 8 * s.binLen % bps s.order ≠ 0) :
    (packGroups s t).boutLen = s.binLen + 1 ∧ (packGroups s t).boutByte s.binLen = 0 := by
  have hlen : (packGroups s t).boutLen = s.binLen + 1 := (boutLen_packGroups ho).trans (if_neg hdvd)
  refine ⟨hlen, byte_eq_of_streamBit (by omega) fun i hi => (streamBit_packGroups ho _).trans ?_⟩
  rw [streamBit_beyond (by omega), BitVec.ofNat_eq_ofNat, BitVec.getLsbD_zero]

/-- The output bytes do not depend on the state the demodulator was in. -/
theorem boutByte_packGroups_congr (t t' : State) {a : Nat} (ha : a < (packGroups s t).boutLen) :
    (packGroups s t').boutByte a = (packGroups s t).boutByte a :=
  ((boutByte_pack _ _ t' a).trans (if_pos ha)).trans ((boutByte_pack _ _ t a).trans (if_pos ha)).symm

end

/-! ### Buffers whose hard decisions are the groups -/

section
variable {x : Point} {v : Nat}

theorem dist2_self (p : Point) : dist2 p p = 0 := by simp [dist2]

theorem dist2_pos_of_ne {p : Point} (h : x ≠ p) : 0 < dist2 x p := by
  have hcoord : x.i - p.i ≠ 0 ∨ x.q - p.q ≠ 0 := by
    by_contra hboth
    rw [not_or, not_ne_iff, not_ne_iff, sub_eq_zero, sub_eq_zero] at hboth
    obtain ⟨hi, hq⟩ := hboth
    cases x; cases p; simp_all
  rcases hcoord with hi | hq
  · exact add_pos_of_pos_of_nonneg (mul_self_pos.2 hi) (mul_self_nonneg _)
  · exact add_pos_of_nonneg_of_pos (mul_self_nonneg _) (mul_self_pos.2 hq)

/-- With distinct points, the nearest to a point of the map is that point. -/
theorem nearest_ctPoint (hdistinct : ∀ m < points s.order, ∀ n < points s.order, s.ctPoint m = s.ctPoint n → m = n)
    (hv : v < points s.order) : s.nearest (s.ctPoint v) = v := by
  refine nearestOf_eq_of_unique _ hv fun j hj hne => ?_
  rw [dist2_self]
  exact dist2_pos_of_ne fun e => hne (hdistinct v hv j hj e).symm

end

/-- The demodulator is bound, and its hard decisions on buffer `b` are the groups of `s`. -/
structure DecidesGroups (s t : State) (b : BufId) : Prop where
  bound : t.demBound = true
  order : t.order = s.order
  cap : t.cap b = 2 * s.symbolCount
  nearest : ∀ n < s.symbolCount, t.nearest (t.sample b n) = s.group n

section
variable {t : State} {x y : BufId}

theorem DecidesGroups.exec_demod (h : DecidesGroups s t x) (hsome : s.symbolCount ≠ 0) :
    exec (.demod x) t = .next (packGroups s t) := by
  have hdecisions : t.hardDecisions x = (List.range s.symbolCount).map s.group := by
    rw [State.hardDecisions, h.cap, Nat.mul_div_cancel_left _ Nat.two_pos]
    exact List.map_congr_left fun n hn => h.nearest n (List.mem_range.1 hn)
  have hcap : t.cap x ≠ 0 := by rw [h.cap]; omega
  rw [exec_demod_bound h.bound, hdecisions, h.order]
  exact command_with_buffer t _ _ hcap

/-- What MODULATE fills a buffer with, under a map of distinct points. -/
theorem decidesGroups_modulated (hbound : s.demBound = true)
    (hdistinct : ∀ m < points s.order, ∀ n < points s.order, s.ctPoint m = s.ctPoint n → m = n) :
    DecidesGroups s (advance
      (s.fillBuf x (2 * s.symbolCount) (2 * s.symbolCount) (s.modulatedWord s.symbolCount))) x where
  bound := hbound
  order := rfl
  cap := congrArg Buffer.cap (buf_fillBuf_same s x _ _ _)
  nearest n hn := by
    obtain ⟨-, -, hsample⟩ := modulated_sample s (bd := x) hn
    exact (congrArg s.nearest hsample).trans (nearest_ctPoint hdistinct (fromMsb_lt _ _))

theorem nearest_transmit (z : Point) : (transmit y x t).nearest z = t.nearest z := by
  simp only [State.nearest, State.ctPoint, transmit_order, transmit_ct, transmit_era]

/-- A silent channel carries every sample over as it is. -/
theorem decidesGroups_transmitted (h : DecidesGroups s t x) (hcur : t.cursor < t.params.noiseLen)
    (hsilent : ∀ a < t.params.noiseLen, t.nzValue a = 0) : DecidesGroups s (advance (transmit y x t)) y := by
  have heven : t.cap x % 2 = 0 := by rw [h.cap]; omega
  obtain ⟨-, hcap, -⟩ := transmit_frame_of_even (bd := y) heven hcur
  refine ⟨(transmit_demBound y x t).trans h.bound, (transmit_order y x t).trans h.order, hcap.trans h.cap,
    fun n hn => ?_⟩
  have hquiet (a : Nat) : t.nzValue (a % t.params.noiseLen) = 0 := hsilent _ (Nat.mod_lt _ (by omega))
  have hsample : (transmit y x t).sample y n = t.sample x n := by
    obtain ⟨hre, him⟩ := transmitted_sample (bd := y) heven hcur (n := n) (by rw [h.cap]; omega)
    rw [hquiet, add_zero] at hre him
    rw [State.sample, State.sample, hcap, hre, him]
  calc (transmit y x t).nearest ((transmit y x t).sample y n)
    _ = t.nearest (t.sample x n) := by rw [hsample, nearest_transmit]
    _ = s.group n := h.nearest n hn

end

end

section
variable {s : State}

/-- A mapper that is not custom holds the default map (10_state.md R17). -/
theorem ctPoint_of_default (hs : s.MapperOk) (hmap : s.mapValid = true) (hcustom : s.custom = false) {idx : Nat}
    (hidx : idx < points s.order) : s.ctPoint idx = genDefault s.order idx := by
  obtain ⟨-, -, -, -, -, hdefault⟩ := hs
  rw [State.ctPoint, hdefault hmap hcustom idx hidx, Option.getD_some]

theorem ctPoint_injective_of_default (hs : s.MapperOk) (hmap : s.mapValid = true) (hcustom : s.custom = false) :
    ∀ m < points s.order, ∀ n < points s.order, s.ctPoint m = s.ctPoint n → m = n := by
  intro m hm n hn heq
  have ⟨horder, _⟩ := hs
  rw [ctPoint_of_default hs hmap hcustom hm, ctPoint_of_default hs hmap hcustom hn] at heq
  exact genDefault_injective (horder.1 hmap) hm hn heq

/-- A channel at sigma = 0 has a cache of zeros (44_channel.md R141). -/
theorem nzValue_of_silent (hs : s.ChannelOk) (hch : s.chValid = true) (hsigma : s.sigma = 0) {a : Nat}
    (ha : a < s.params.noiseLen) : s.nzValue a = 0 := by
  obtain ⟨-, -, -, -, hzero⟩ := hs
  rw [State.nzValue, hzero hch hsigma a ha, Option.getD_some]

end

end Sys2Proof.Machine
end

section
/-! The statement on the way through modulator and demodulator. -/

open Sys2Proof Sys2Proof.Machine

/-- Settles O46: the hard decisions on the modulated buffer, and on its copy through a silent channel, are the groups
of the input, and the groups packed again are the input. -/
theorem noiselessRoundTripIsExact : Obligations.NoiselessRoundTripIsExact := by
  intro x y s hs hcustom hmod hdem hlen hfits
  obtain ⟨-, -, hmapper, -, -, hchannel, -⟩ := hs
  have ⟨horder, hmodMap, _⟩ := hmapper
  have hmap : s.mapValid = true := hmodMap hmod
  have ho : s.order ≠ .code3 := horder.1 hmap
  have hsome : s.symbolCount ≠ 0 := symbolCount_ne_zero ho hlen
  have hmodulated := decidesGroups_modulated (x := x) hdem (ctPoint_injective_of_default hmapper hmap hcustom)
  refine ⟨_, _, exec_modulate_fills hmod hsome hfits, hmodulated.exec_demod hsome,
    fun a ha => boutByte_packGroups ho ha, fun hdvd => ?exact, fun hdvd => ?padded, fun hne hch hsigma => ?channel⟩
  case exact => rw [boutLen_packGroups ho, if_pos hdvd]
  case padded => exact packGroups_padded ho hdvd
  case channel =>
    have ⟨_, hcur, _⟩ := hchannel
    have hcopied := decidesGroups_transmitted (y := y) hmodulated hcur
      fun a ha => nzValue_of_silent hchannel hch hsigma ha
    refine ⟨_, _, exec_chTxb_transmits hne.symm hch ?_, hcopied.exec_demod hsome, rfl,
      fun a ha => boutByte_packGroups_congr _ _ ha⟩
    rw [hmodulated.cap]
    omega

end
